-- ==== Sys2Proof/Word.lean ====
section
/-! DEFINITION. The word types of 00_scope.md R11: bytes, 32-bit words, 64-bit words and frames of bytes. -/

namespace Sys2Proof

/-- `u8` of R11. -/
abbrev Byte := BitVec 8

/-- `u32` of R11: an MT state word, a raw MT draw, the operands `A` and `B`. -/
abbrev U32 := BitVec 32

/-- `u64` of R11: an XS state word, a raw XS draw, an operand word of `XS.INIT`. -/
abbrev U64 := BitVec 64

/-- A command frame, or a response frame, as its bytes, first byte first (R60, R66). -/
abbrev Frame := List Byte

end Sys2Proof
end

