-- ==== Sys2Proof/Config.lean ====
section
/-! DEFINITION. The numbers of 00_scope.md R9, fixed by the source, and the one parameter of R10.
`N` = 624, `M` = 397, `W32`, `W64` and `XS_WORDS` = 4 stand as numerals where they are a length, an index offset or a width.
No free value exists on this hardware (93_implementation_defined.md part 1), so none is declared. -/

namespace Sys2Proof.Config

/-- `MATRIX_A`, the twist constant (R9). -/
abbrev matrixA : U32 := 0x9908B0DF#32

/-- `SEED_MULT`, the seeding multiplier (R9). -/
abbrev seedMult : U32 := 69069#32

/-- `TEMPER_B`, the first tempering mask (R9). -/
abbrev temperB : U32 := 0x9D2C5680#32

/-- `TEMPER_C`, the second tempering mask (R9). -/
abbrev temperC : U32 := 0xEFC60000#32

/-- `DIVISOR`, the rescale divisor `2^32 - 1` (R9). -/
abbrev divisor : Nat := 4294967295

/-- `BYTE_DIV`, the byte adapter's divisor `(2^32 - 1) / 255` (R9). -/
abbrev byteDiv : Nat := 16843009

/-- `COARSE_MULT`, the coarse 64-bit multiplier `10^12` (R9). -/
abbrev coarseMult : Nat := 1000000000000

/-- The largest signed 32-bit integer, the bound of the second range test of `MT.INTR` (R116). -/
abbrev maxSigned : Int := 2147483647

/-- `INSTANCES`, the one parameter the spec leaves to the model's caller, at its default (R10, D25).
`Sys2Proof.Machine.Platform n` takes any other value. -/
abbrev instances : Nat := 1

end Sys2Proof.Config
end

