-- ==== Sys2Proof/Syntax.lean ====
section
/-! DEFINITION. The seventeen commands of 30_encoding.md R68, one constructor a row of spec/opcode_table.json,
the four frame formats of R60 and the decoder's reasons for calling a frame illegal (R69). -/

namespace Sys2Proof

/-- A decoded command with its operands (R68). An operand the spec types as signed is the same 32-bit word,
read as two's complement by the command's meaning (R65). -/
inductive Instr where
  /-- `MT.SEED seed` (R90). -/
  | mtSeed (seed : U32)
  /-- `MT.WORD` (R96). -/
  | mtWord
  /-- `MT.WORDB max`, unsigned (R112). -/
  | mtWordb (max : U32)
  /-- `MT.WORDR min, max`, unsigned (R113). -/
  | mtWordr (min max : U32)
  /-- `MT.INT` (R114). -/
  | mtInt
  /-- `MT.INTB max`, signed (R115). -/
  | mtIntb (max : U32)
  /-- `MT.INTR min, max`, signed (R116). -/
  | mtIntr (min max : U32)
  /-- `MT.BYTES len` (R117). -/
  | mtBytes (len : U32)
  /-- `MT.F64` (R118). -/
  | mtF64
  /-- `MT.U64C` (R119). -/
  | mtU64c
  /-- `MT.RDSEED` (R160). -/
  | mtRdseed
  /-- `MT.RDMTI` (R161). -/
  | mtRdmti
  /-- `MT.RDST k` (R162). -/
  | mtRdst (k : U32)
  /-- `XS.INIT x0, x1, ...`: any number of words is a legal encoding (R64, R140). -/
  | xsInit (words : List U64)
  /-- `XS.WORD` (R141). -/
  | xsWord
  /-- `XS.RDST i` (R163). -/
  | xsRdst (i : U32)
  /-- `RDSTAT` (R164). -/
  | rdstat
  deriving DecidableEq, Repr

/-- The four frame formats of R60. -/
inductive Format where
  /-- No operand, `L = 1` (R61). -/
  | z
  /-- One 32-bit operand, `L = 5` (R62). -/
  | a
  /-- Two 32-bit operands, `L = 9` (R63). -/
  | ab
  /-- A sequence of 64-bit words, `L = 1 + 8n` (R64). -/
  | v
  deriving DecidableEq, Repr

/-- Why a frame is illegal (R69). The machine answers each with `ERR_ILLEGAL`. -/
inductive Illegal where
  /-- R69 (a): the frame has no byte. -/
  | emptyFrame
  /-- R69 (b): the first byte is none of the seventeen opcodes. -/
  | unassignedOpcode (opcode : Byte)
  /-- R69 (c) to (f): the frame's length `L` does not fit the opcode's format. -/
  | badLength (format : Format) (L : Nat)
  deriving DecidableEq, Repr

end Sys2Proof
end

