-- ==== Sys2Proof/Machine/State.lean ====
section
/-! DEFINITION. The state of one RNG-CORE instance (10_state.md R20: "exactly this state and no other"), its two ports
(20_memory.md R40 (c), 70_reset_and_hazards.md R218), the status codes of a response (30_encoding.md R74) and the state after reset. -/

namespace Sys2Proof.Machine

/-- The MT state array: an ordered sequence of exactly 624 words (R21). -/
structure MtArray where
  words : List U32
  size : words.length = 624 := by rfl
  deriving DecidableEq, Repr

/-- The MT generator once it has been constructed (R20 to R23). -/
structure MtEngine where
  /-- `mt[0..623]`, the state array (R21). -/
  mt : MtArray
  /-- `mti`, the cursor, 10 bits, 0 .. 624 (R22). -/
  mti : BitVec 10
  /-- `seed`, the operand of the most recent `MT.SEED` (R23). -/
  seed : U32
  deriving DecidableEq, Repr

/-- The status byte of a response, by name (R74). -/
inductive Status where
  /-- The command completed. -/
  | ok
  /-- The frame is illegal (R69, R182). -/
  | errIllegal
  /-- The command needs a generator that has not been constructed since reset (R183). -/
  | errNotInit
  /-- `XS.INIT` with a word count other than four (R184). -/
  | errInvalidState
  /-- An operand value breaks the command's contract (R185). -/
  | errRange
  deriving DecidableEq, Repr

/-- One response (R66): the status and the payload bytes. -/
structure Response where
  status : Status
  payload : List Byte
  deriving DecidableEq, Repr

/-- One act of the host on the instance (R218). Taking a response changes nothing in the block, so it is no event. -/
inductive HostEvent where
  /-- Present a whole command frame, of any bytes (R60). -/
  | command (f : Frame)
  /-- Reset (R210). -/
  | reset
  deriving DecidableEq, Repr

/-- One instance (R20) with its two ports. An engine is absent until it is constructed: R31 and U12 say that its
contents then hold no value and that a model takes them as absent, so `MT_VALID` and `XS_VALID` are the presence of
the engine (R25, R26). -/
structure State where
  /-- `mt`, `mti`, `seed`; present exactly when `MT_VALID = 1`. -/
  mt : Option MtEngine
  /-- `s[0..3]`; present exactly when `XS_VALID = 1`. -/
  xs : Option (Vector U64 4)
  /-- The command port's other side: what the host does next, oldest first (R49, R218). Not state of the block. -/
  pending : List HostEvent
  /-- The response port: the responses produced so far, oldest first (R49, R66). Not state of the block. -/
  responses : List Response
  deriving DecidableEq, Repr

/-- Why the machine stops with a fault: it never does. "There is no third outcome: no hang, no partial result,
no deferred error" (R180): the four error codes are responses, after which the next command executes normally
(R189), so no constructor is needed. Safe: nothing is hidden by a stop. -/
inductive Fault where
  deriving DecidableEq, Repr

/-- Why an instruction is refused. -/
inductive Refusal where
  /-- Raised by an arm of `exec` whose instruction has no meaning yet; no arm does. Safe: the machine stops. -/
  | notModelled (mnemonic : String)
  deriving DecidableEq, Repr

/-- The machine right after reset: both valid flags 0, no content (R31, R211), nothing presented, nothing answered. -/
def State.reset : State :=
  { mt := none, xs := none, pending := [], responses := [] }

end Sys2Proof.Machine
end

