-- ==== Sys2Proof/Machine/Flags.lean ====
section
/-! DEFINITION. The valid flags and the STATUS view (10_state.md R25 to R27) and the status byte's values (30_encoding.md R74).
There are no arithmetic flags (00_scope.md R12, 41_mt_adapters.md R121): no other flag computation exists. -/

namespace Sys2Proof.Machine

/-- `MT_VALID` (R25). -/
def State.mtValid (s : State) : Bool := s.mt.isSome

/-- `XS_VALID` (R26). -/
def State.xsValid (s : State) : Bool := s.xs.isSome

/-- `STATUS`: bit 0 is `MT_VALID`, bit 1 is `XS_VALID`, bits 31:2 are zero (R27). -/
def State.statusWord (s : State) : U32 :=
  BitVec.ofNat 32 (s.mtValid.toNat + 2 * s.xsValid.toNat)

/-- The status byte (R74). -/
def statusByte (st : Status) : Byte :=
  match st with
  | .ok => 0x00#8
  | .errIllegal => 0x01#8
  | .errNotInit => 0x02#8
  | .errInvalidState => 0x03#8
  | .errRange => 0x04#8

/-- The response frame `[status] ++ payload` (R66). -/
def responseFrame (r : Response) : Frame := statusByte r.status :: r.payload

end Sys2Proof.Machine
end

