-- ==== Sys2Proof/WellFormed.lean ====
section
/-! DEFINITION. What 30_encoding.md R69 says of legal frames, written from the rule alone and not from the decoder,
and the well-formedness of an instruction. -/

namespace Sys2Proof

/-- The format of an opcode byte: the "Used by" lists of R61 to R64, with the opcode values of R68.
`none` for the 239 unassigned byte values (R68, R69). -/
def formatOf (opcode : Byte) : Option Format :=
  if opcode ∈ [0x11#8, 0x14#8, 0x18#8, 0x19#8, 0x1A#8, 0x1B#8, 0x21#8, 0x30#8] then some .z
  else if opcode ∈ [0x10#8, 0x12#8, 0x15#8, 0x17#8, 0x1C#8, 0x22#8] then some .a
  else if opcode ∈ [0x13#8, 0x16#8] then some .ab
  else if opcode ∈ [0x20#8] then some .v
  else none

/-- Whether a frame of length `L` has a length its format allows (R61 to R64; R69 (c) to (f)). -/
def Format.fits (fmt : Format) (L : Nat) : Bool :=
  match fmt with
  | .z => L == 1
  | .a => L == 5
  | .ab => L == 9
  | .v => (L - 1) % 8 == 0

/-- R69: a frame is legal when none of (a) to (f) holds. -/
def frameLegal (f : Frame) : Bool :=
  match f with
  | [] => false
  | opcode :: _ =>
    match formatOf opcode with
    | none => false
    | some fmt => fmt.fits f.length

/-- Every instruction the syntax can hold is well formed: the operands' widths are in their types, and
"every 32-bit and 64-bit operand pattern is a legal encoding" (R69). What the spec refuses is a frame
(`frameLegal`), or an operand value, by a fault of the command (R185). -/
def Instr.wellFormed (i : Instr) : Bool :=
  match i with
  | .mtSeed _ | .mtWord | .mtWordb _ | .mtWordr _ _ | .mtInt | .mtIntb _ | .mtIntr _ _ | .mtBytes _
  | .mtF64 | .mtU64c | .mtRdseed | .mtRdmti | .mtRdst _ | .xsInit _ | .xsWord | .xsRdst _ | .rdstat => true

end Sys2Proof
end

