-- ==== Sys2Proof/Decode.lean ====
section
/-! DEFINITION. The decoder and the encoder of 30_encoding.md: byte order (R41), operand assembly (R64, R65),
the opcode map (R68), illegal frames (R69), and the numbering of spec/opcode_table.json. -/

namespace Sys2Proof

/-! ### Byte order (R41) -/

/-- `le32(v)`: the four bytes of `v`, least significant first (R15, R41). -/
def le32 (v : U32) : List Byte :=
  [v.extractLsb' 0 8, v.extractLsb' 8 8, v.extractLsb' 16 8, v.extractLsb' 24 8]

/-- `le64(v)`: the eight bytes of `v`, least significant first (R15, R41). -/
def le64 (v : U64) : List Byte :=
  [v.extractLsb' 0 8, v.extractLsb' 8 8, v.extractLsb' 16 8, v.extractLsb' 24 8,
   v.extractLsb' 32 8, v.extractLsb' 40 8, v.extractLsb' 48 8, v.extractLsb' 56 8]

/-- The 32-bit operand in four bytes, `b0` first in the frame (R65). -/
def word32 (b0 b1 b2 b3 : Byte) : U32 :=
  BitVec.ofNat 32 (b0.toNat + b1.toNat * 2 ^ 8 + b2.toNat * 2 ^ 16 + b3.toNat * 2 ^ 24)

/-- The 64-bit word in eight bytes, `b0` first in the frame (R64). -/
def word64 (b0 b1 b2 b3 b4 b5 b6 b7 : Byte) : U64 :=
  BitVec.ofNat 64 (b0.toNat + b1.toNat * 2 ^ 8 + b2.toNat * 2 ^ 16 + b3.toNat * 2 ^ 24
    + b4.toNat * 2 ^ 32 + b5.toNat * 2 ^ 40 + b6.toNat * 2 ^ 48 + b7.toNat * 2 ^ 56)

/-- The words `X[0], X[1], ...` of a format `V` frame's operand bytes; `none` when the bytes are not a
whole number of words (R64, R69 (f)). -/
def words64 : List Byte → Option (List U64)
  | [] => some []
  | b0 :: b1 :: b2 :: b3 :: b4 :: b5 :: b6 :: b7 :: rest =>
    (words64 rest).map fun ws => word64 b0 b1 b2 b3 b4 b5 b6 b7 :: ws
  | _ => none

/-! ### The decoder (R68 to R71) -/

/-- Format `Z`: no operand byte (R61, R69 (c)). -/
def decodeZ (i : Instr) (operands : List Byte) : Except Illegal Instr :=
  match operands with
  | [] => .ok i
  | _ => .error (.badLength .z (1 + operands.length))

/-- Format `A`: four operand bytes (R62, R69 (d)). -/
def decodeA (i : U32 → Instr) (operands : List Byte) : Except Illegal Instr :=
  match operands with
  | [a0, a1, a2, a3] => .ok (i (word32 a0 a1 a2 a3))
  | _ => .error (.badLength .a (1 + operands.length))

/-- Format `AB`: eight operand bytes (R63, R69 (e)). -/
def decodeAB (i : U32 → U32 → Instr) (operands : List Byte) : Except Illegal Instr :=
  match operands with
  | [a0, a1, a2, a3, b0, b1, b2, b3] => .ok (i (word32 a0 a1 a2 a3) (word32 b0 b1 b2 b3))
  | _ => .error (.badLength .ab (1 + operands.length))

/-- Format `V`: a whole number of 64-bit words, any number of them (R64, R69 (f)). -/
def decodeV (i : List U64 → Instr) (operands : List Byte) : Except Illegal Instr :=
  match words64 operands with
  | some ws => .ok (i ws)
  | none => .error (.badLength .v (1 + operands.length))

/-- The decoder: total, and blind to the state (R71). The opcode map is R68's. -/
def decode (f : Frame) : Except Illegal Instr :=
  match f with
  | [] => .error .emptyFrame
  | opcode :: operands =>
    match opcode.toNat with
    | 0x10 => decodeA .mtSeed operands
    | 0x11 => decodeZ .mtWord operands
    | 0x12 => decodeA .mtWordb operands
    | 0x13 => decodeAB .mtWordr operands
    | 0x14 => decodeZ .mtInt operands
    | 0x15 => decodeA .mtIntb operands
    | 0x16 => decodeAB .mtIntr operands
    | 0x17 => decodeA .mtBytes operands
    | 0x18 => decodeZ .mtF64 operands
    | 0x19 => decodeZ .mtU64c operands
    | 0x1A => decodeZ .mtRdseed operands
    | 0x1B => decodeZ .mtRdmti operands
    | 0x1C => decodeA .mtRdst operands
    | 0x20 => decodeV .xsInit operands
    | 0x21 => decodeZ .xsWord operands
    | 0x22 => decodeA .xsRdst operands
    | 0x30 => decodeZ .rdstat operands
    | _ => .error (.unassignedOpcode opcode)

/-! ### The encoder -/

/-- The one frame of a command (R61 to R64, R68, R71). -/
def encode (i : Instr) : Frame :=
  match i with
  | .mtSeed seed => 0x10#8 :: le32 seed
  | .mtWord => [0x11#8]
  | .mtWordb max => 0x12#8 :: le32 max
  | .mtWordr min max => 0x13#8 :: (le32 min ++ le32 max)
  | .mtInt => [0x14#8]
  | .mtIntb max => 0x15#8 :: le32 max
  | .mtIntr min max => 0x16#8 :: (le32 min ++ le32 max)
  | .mtBytes len => 0x17#8 :: le32 len
  | .mtF64 => [0x18#8]
  | .mtU64c => [0x19#8]
  | .mtRdseed => [0x1A#8]
  | .mtRdmti => [0x1B#8]
  | .mtRdst k => 0x1C#8 :: le32 k
  | .xsInit words => 0x20#8 :: words.flatMap le64
  | .xsWord => [0x21#8]
  | .xsRdst i => 0x22#8 :: le32 i
  | .rdstat => [0x30#8]

/-! ### The opcode table's numbering of an instruction's bits -/

/-- The first `n` bytes of `w`, bits 7..0 first: the frame's bytes in order. -/
def tableBytes : Nat → Nat → Frame
  | 0, _ => []
  | n + 1, w => BitVec.ofNat 8 w :: tableBytes n (w / 256)

/-- The frame length of a table row, from its opcode byte. The row of `XS.INIT` says `1 + 8n`: four words are
taken, the one count with which the command succeeds (R140). An unassigned opcode stands alone. -/
def tableFrameLength (opcode : Nat) : Nat :=
  match formatOf (BitVec.ofNat 8 opcode) with
  | some .a => 5
  | some .ab => 9
  | some .v => 33
  | _ => 1

/-- The frame of a table word: its `nbits` bits, and zero bytes up to the row's frame length. -/
def frameOfTableWord (nbits w : Nat) : Frame :=
  let given := tableBytes ((nbits + 7) / 8) (w % 2 ^ nbits)
  given ++ List.replicate (tableFrameLength (w % 2 ^ nbits % 256) - given.length) 0#8

/-- The instruction the decoder reads from a table word; `none` where it refuses. -/
def decodeTableWord (nbits w : Nat) : Option Instr :=
  match decode (frameOfTableWord nbits w) with
  | .ok i => some i
  | .error _ => none

end Sys2Proof
end

