-- ==== Sys2Proof/Machine/Float.lean ====
section
/-! DEFINITION. The binary64 primitives of 00_scope.md R13 on the values that can arise: zero and positive normal numbers
(41_mt_adapters.md R121: no NaN, infinity, negative zero or subnormal). One rounding function, to nearest with ties to even, serves both
`fdiv` and `fmul`: each computes its exact quotient or product and rounds it once. -/

namespace Sys2Proof.Machine

/-- A non-negative binary64 value, `mant * 2^exp`: zero is `⟨0, 0⟩`, and otherwise `2^52 ≤ mant < 2^53`. -/
structure F64 where
  mant : Nat
  exp : Int
  deriving DecidableEq, Repr

/-- `floor(log2(n / d))` for positive `n`, `d`. -/
def floorLog2 (n d : Nat) : Int :=
  let k : Int := (n.log2 : Int) - (d.log2 : Int)
  if d * 2 ^ k.toNat ≤ n * 2 ^ (-k).toNat then k else k - 1

/-- The integer nearest to `n / d`, the even one of two equally near (R13). -/
def nearestEven (n d : Nat) : Nat :=
  let q := n / d
  let r := n % d
  if 2 * r < d then q else if d < 2 * r then q + 1 else q + q % 2

/-- The binary64 value nearest to the rational `n / d`, `0 < d`, ties to even (R13). A significand that rounds up to
`2^53` moves to the next exponent. -/
def roundQuotient (n d : Nat) : F64 :=
  if n = 0 then ⟨0, 0⟩
  else
    let e := floorLog2 n d - 52
    let m := nearestEven (n * 2 ^ (-e).toNat) (d * 2 ^ e.toNat)
    if m = 2 ^ 53 then ⟨2 ^ 52, e + 1⟩ else ⟨m, e⟩

/-- `cvt(v)`: the integer as a binary64 value; exact for `v < 2^53` (R13). -/
def cvt (v : Nat) : F64 := roundQuotient v 1

/-- `fdiv(a, b)`: the exact quotient, rounded once (R13). No rule divides by zero (R121). -/
def fdiv (a b : F64) : F64 :=
  roundQuotient (a.mant * 2 ^ (a.exp - b.exp).toNat) (b.mant * 2 ^ (b.exp - a.exp).toNat)

/-- `fmul(a, b)`: the exact product, rounded once (R13). -/
def fmul (a b : F64) : F64 :=
  roundQuotient (a.mant * b.mant * 2 ^ (a.exp + b.exp).toNat) (2 ^ (-(a.exp + b.exp)).toNat)

/-- `trunc(x)`: the largest integer not above `x` (R13). -/
def trunc (x : F64) : Nat :=
  x.mant * 2 ^ x.exp.toNat / 2 ^ (-x.exp).toNat

/-- `bits(x)`: sign bit 63 (zero here), exponent bits 62:52 with bias 1023, fraction bits 51:0 (R13). -/
def f64Bits (x : F64) : U64 :=
  if x.mant = 0 then 0#64
  else BitVec.ofNat 64 ((x.exp + 52 + 1023).toNat * 2 ^ 52 + (x.mant - 2 ^ 52))

end Sys2Proof.Machine
end

