-- ==== Sys2Proof/Machine/Operands.lean ====
section
/-! DEFINITION. The readings of operands and results: signed and unsigned words (30_encoding.md R65, R67), and the adapters'
arithmetic on a raw word (41_mt_adapters.md R110, R114, R117 to R119). -/

namespace Sys2Proof.Machine

/-- A 32-bit operand read as `i32`, two's complement (R11, R65). -/
def signed (a : U32) : Int := a.toInt

/-- The two's-complement word of an `i32` value (R67). -/
def signedWord (v : Int) : U32 := BitVec.ofInt 32 v

/-- The quotient of R110 and R118: `fdiv(cvt(W), cvt(4294967295))`. -/
def unitFloat (w : U32) : F64 := fdiv (cvt w.toNat) (cvt Config.divisor)

/-- `rescale(W, r)` (R110): divide, multiply, truncate, each float operation rounded once. -/
def rescale (w : U32) (r : Nat) : Nat := trunc (fmul (unitFloat w) (cvt r))

/-- The coarse 64-bit value of a raw word (R119). -/
def coarse (w : U32) : U64 := BitVec.ofNat 64 (trunc (fmul (unitFloat w) (cvt Config.coarseMult)))

/-- The byte of a raw word, `W div 16843009` (R117). -/
def byteOf (w : U32) : Byte := BitVec.ofNat 8 (w.toNat / Config.byteDiv)

end Sys2Proof.Machine
end

