-- ==== Sys2Proof/Machine/Ops.lean ====
section
/-! DEFINITION. The named functions of 00_scope.md R16 over the two engines, the answer to a command (R15), the one shared entry of a
fault (60_exceptions.md R187), the return from it (R189: the next command), reset (R210), and the shapes the commands share. -/

namespace Sys2Proof.Machine

/-! ### The MT engine: fill, twist, temper, draw (40_mt_core.md R91 to R95) -/

/-- `n` words of the seeding recurrence, from `w` on (R91). -/
def fillFrom : Nat → U32 → List U32
  | 0, _ => []
  | n + 1, w => w :: fillFrom n (Config.seedMult * w)

theorem fillFrom_length (n : Nat) (w : U32) : (fillFrom n w).length = n := by
  induction n generalizing w with
  | zero => rfl
  | succ n ih => simp [fillFrom, ih]

/-- `mt_fill(seed)` (R91). -/
def mtFill (seed : U32) : MtArray := ⟨fillFrom 624 seed, fillFrom_length 624 seed⟩

/-- `mt[i]`, `0 <= i < 624` (R14). -/
def MtArray.word (a : MtArray) (i : Nat) : U32 := a.words.getD i 0#32

/-- The word a twist step writes, from the three words it reads: `a = mt[k]`, `b = mt[k+1]`, `c = mt[k+397]` (R92). -/
def twistWord (a b c : U32) : U32 :=
  let y := (a &&& 0x80000000#32) ||| (b &&& 0x7FFFFFFF#32)
  c ^^^ (y >>> 1) ^^^ (if y &&& 1#32 = 1#32 then Config.matrixA else 0#32)

/-- Consecutive twist steps: `a` and `b` walk along the array from its first word here, `c` along the second list, for as long as both last. -/
def twistRun : List U32 → List U32 → List U32
  | c :: cs, a :: b :: rest => twistWord a b c :: twistRun cs (b :: rest)
  | _, _ => []

theorem twistRun_length (cs ws : List U32) : (twistRun cs ws).length = min cs.length (ws.length - 1) := by
  induction cs generalizing ws with
  | nil => simp [twistRun]
  | cons c cs ih =>
    match ws with
    | [] => simp [twistRun]
    | [_] => simp [twistRun]
    | a :: b :: rest => simp [twistRun, ih]

/-- The words after the twist, in the order of R93's table. Steps 0 to 226 read old words only. Steps 227 to 622 read as `c` the
new word 227 places below: the new words 0 to 226, then the new words 227 to 395. Step 623 reads the new words 0 and 396. That this is
the loop of R92, in ascending order and in place, is a statement of Certificates/Slice0. -/
def twistWords (old : List U32) : List U32 :=
  let new0 := twistRun (old.drop 397) old
  let new227 := twistRun new0 (old.drop 227)
  let new454 := twistRun new227 (old.drop 454)
  new0 ++ new227 ++ new454 ++ [twistWord (old.getD 623 0#32) (new0.getD 0 0#32) (new227.getD (396 - 227) 0#32)]

theorem twistWords_length (old : List U32) (h : old.length = 624) : (twistWords old).length = 624 := by
  simp [twistWords, twistRun_length, h]

/-- The array after the whole twist (R92, R93). -/
def twistArray (mt : MtArray) : MtArray := ⟨twistWords mt.words, twistWords_length mt.words mt.size⟩

/-- `mt_twist()` (R92): the array is twisted and the cursor is 0. -/
def mtTwist (e : MtEngine) : MtEngine :=
  { e with mt := twistArray e.mt, mti := 0#10 }

/-- `temper(y)` (R94). -/
def temper (y : U32) : U32 :=
  let y1 := y ^^^ (y >>> 11)
  let y2 := y1 ^^^ ((y1 <<< 7) &&& Config.temperB)
  let y3 := y2 ^^^ ((y2 <<< 15) &&& Config.temperC)
  y3 ^^^ (y3 >>> 18)

/-- The first line of `mt_draw()`: twist when the cursor is 624 or more (R95). -/
def mtRefill (e : MtEngine) : MtEngine :=
  if 624 ≤ e.mti.toNat then mtTwist e else e

/-- `mt_draw()` (R95): the tempered word at the cursor, and the engine after. -/
def mtDraw (e : MtEngine) : U32 × MtEngine :=
  let e' := mtRefill e
  (temper (e'.mt.word e'.mti.toNat), { e' with mti := e'.mti + 1#10 })

/-- `n` draws in a row: the words in the order drawn, and the engine after (R117, R120). -/
def mtDraws : Nat → MtEngine → List U32 × MtEngine
  | 0, e => ([], e)
  | n + 1, e =>
    let d := mtDraw e
    let rest := mtDraws n d.2
    (d.1 :: rest.1, rest.2)

/-! ### The XS engine (42_xoshiro.md R142) -/

/-- `rotl(x, k)`, `0 < k < 64` (R12). -/
def rotl (x : U64) (k : Nat) : U64 := (x <<< k) ||| (x >>> (64 - k))

/-- `xs_next()` (R142): the result and the new state. Each line of the rule is one `let`, in its order. -/
def xsNext (s : Vector U64 4) : U64 × Vector U64 4 :=
  let result := rotl (s[1] * 5#64) 7 * 9#64
  let t := s[1] <<< 17
  let s := s.set 2 (s[2] ^^^ s[0])
  let s := s.set 3 (s[3] ^^^ s[1])
  let s := s.set 1 (s[1] ^^^ s[2])
  let s := s.set 0 (s[0] ^^^ s[3])
  let s := s.set 2 (s[2] ^^^ t)
  let s := s.set 3 (rotl s[3] 45)
  (result, s)

/-! ### Answering a command, faults, reset -/

/-- The answer type of every meaning. -/
abbrev Answer := Host.Outcome State Fault Refusal

/-- `respond(st, p)` (R15): exactly one response frame, appended to the stream (R66). -/
def State.respond (s : State) (st : Status) (payload : List Byte) : State :=
  { s with responses := s.responses ++ [⟨st, payload⟩] }

/-- `raise E` (R15, R187): the response is the status byte alone and nothing of the block is written. Control goes
nowhere, so nothing is saved and the return is the next command (R189). -/
def State.raise (s : State) (e : Status) : Answer := .next (s.respond e [])

/-- A command that succeeds in the state `s` with this payload. -/
def State.answer (s : State) (payload : List Byte) : Answer := .next (s.respond .ok payload)

/-- The first test of every MT command but `MT.SEED`: `if MT_VALID = 0 then raise ERR_NOT_INIT` (R183). -/
def State.withMt (s : State) (k : MtEngine → Answer) : Answer :=
  match s.mt with
  | none => s.raise .errNotInit
  | some e => k e

/-- The first test of `XS.WORD` and `XS.RDST`: `if XS_VALID = 0 then raise ERR_NOT_INIT` (R183). -/
def State.withXs (s : State) (k : Vector U64 4 → Answer) : Answer :=
  match s.xs with
  | none => s.raise .errNotInit
  | some v => k v

/-- The second test of a command: `if c then raise ERR_RANGE` (R185, R188). -/
def State.rangeCheck (s : State) (c : Prop) [Decidable c] (k : Answer) : Answer :=
  if c then s.raise .errRange else k

/-- One draw, answered by a payload made of its word (R120). -/
def State.drawAnswer (s : State) (e : MtEngine) (payload : U32 → List Byte) : Answer :=
  let d := mtDraw e
  { s with mt := some d.2 }.answer (payload d.1)

/-- The reset event (R210, R211): both engines lose their content; it produces no response. -/
def State.applyReset (s : State) : State := { s with mt := none, xs := none }

/-- The host's next act, and the state with it taken off the port (R51, R218). `none`: the block is idle. -/
def State.takeEvent (s : State) : Option (HostEvent × State) :=
  match s.pending with
  | [] => none
  | ev :: rest => some (ev, { s with pending := rest })

/-- The state with a command frame presented next, before anything else the host does. -/
def State.present (s : State) (f : Frame) : State :=
  { s with pending := .command f :: s.pending }

end Sys2Proof.Machine
end

