-- ==== Sys2Proof/Machine/Inspect.lean ====
section
/-! DEFINITION. The inspection commands, 43_inspect.md R160 to R164. None changes an engine (20_memory.md R46). -/

namespace Sys2Proof.Machine

/-- `MT.RDSEED` (R160). -/
def execMtRdseed (s : State) : Answer :=
  s.withMt fun e => s.answer (le32 e.seed)

/-- `MT.RDMTI` (R161): the upper bits are zero. -/
def execMtRdmti (s : State) : Answer :=
  s.withMt fun e => s.answer (le32 (BitVec.setWidth 32 e.mti))

/-- `MT.RDST k` (R162). -/
def execMtRdst (k : U32) (s : State) : Answer :=
  s.withMt fun e =>
    s.rangeCheck (624 ≤ k.toNat) <| s.answer (le32 (e.mt.word k.toNat))

/-- `XS.RDST i` (R163). -/
def execXsRdst (i : U32) (s : State) : Answer :=
  s.withXs fun v =>
    if h : i.toNat < 4 then s.answer (le64 v[i.toNat]) else s.raise .errRange

/-- `RDSTAT` (R164): no fault, in any state. -/
def execRdstat (s : State) : Answer :=
  s.answer (le32 s.statusWord)

end Sys2Proof.Machine
end

