-- ==== Sys2Proof/Machine/MtAdapters.lean ====
section
/-! DEFINITION. The MT output adapters, 41_mt_adapters.md R112 to R119. Every test is made before the draw (R185). -/

namespace Sys2Proof.Machine

/-- `MT.WORDB max` (R112). -/
def execMtWordb (max : U32) (s : State) : Answer :=
  s.withMt fun e =>
    s.rangeCheck (max = 0#32) <|
      s.drawAnswer e fun w => le32 (BitVec.ofNat 32 (rescale w max.toNat))

/-- `MT.WORDR min, max` (R113). -/
def execMtWordr (min max : U32) (s : State) : Answer :=
  s.withMt fun e =>
    s.rangeCheck (max.toNat ≤ min.toNat) <|
      s.drawAnswer e fun w => le32 (BitVec.ofNat 32 (min.toNat + rescale w (max.toNat - min.toNat)))

/-- `MT.INT` (R114). -/
def execMtInt (s : State) : Answer :=
  s.withMt fun e => s.drawAnswer e fun w => le32 (w >>> 1)

/-- `MT.INTB max` (R115). -/
def execMtIntb (max : U32) (s : State) : Answer :=
  s.withMt fun e =>
    s.rangeCheck (signed max ≤ 0) <|
      s.drawAnswer e fun w => le32 (signedWord (rescale w (signed max).toNat))

/-- `MT.INTR min, max` (R116): the two range tests in the rule's order. -/
def execMtIntr (min max : U32) (s : State) : Answer :=
  s.withMt fun e =>
    let r := signed max - signed min
    s.rangeCheck (r ≤ 0) <|
      s.rangeCheck (Config.maxSigned < r) <|
        s.drawAnswer e fun w => le32 (signedWord (signed min + rescale w r.toNat))

/-- `MT.BYTES len` (R117): `len` draws, one byte each, in the order drawn. -/
def execMtBytes (len : U32) (s : State) : Answer :=
  s.withMt fun e =>
    let d := mtDraws len.toNat e
    { s with mt := some d.2 }.answer (d.1.map byteOf)

/-- `MT.F64` (R118; the payload is R42's). -/
def execMtF64 (s : State) : Answer :=
  s.withMt fun e => s.drawAnswer e fun w => le64 (f64Bits (unitFloat w))

/-- `MT.U64C` (R119). -/
def execMtU64c (s : State) : Answer :=
  s.withMt fun e => s.drawAnswer e fun w => le64 (coarse w)

end Sys2Proof.Machine
end

