-- ==== Sys2Proof/Machine/MtCore.lean ====
section
/-! DEFINITION. The MT engine's core commands, 40_mt_core.md: `MT.SEED` (R90) and `MT.WORD` (R96). -/

namespace Sys2Proof.Machine

/-- `MT.SEED seed` (R90): no fault; valid or not before. -/
def execMtSeed (seed : U32) (s : State) : Answer :=
  { s with mt := some { mt := mtFill seed, mti := 624#10, seed := seed } }.answer []

/-- `MT.WORD` (R96). -/
def execMtWord (s : State) : Answer :=
  s.withMt fun e => s.drawAnswer e le32

end Sys2Proof.Machine
end

