-- ==== Sys2Proof/Machine/Xoshiro.lean ====
section
/-! DEFINITION. The XS engine's commands, 42_xoshiro.md: `XS.INIT` (R140) and `XS.WORD` (R141). -/

namespace Sys2Proof.Machine

/-- `XS.INIT x0, x1, ...` (R140): four words are loaded, any other number is `ERR_INVALID_STATE`. -/
def execXsInit (words : List U64) (s : State) : Answer :=
  match words with
  | [x0, x1, x2, x3] => { s with xs := some #v[x0, x1, x2, x3] }.answer []
  | _ => s.raise .errInvalidState

/-- `XS.WORD` (R141). -/
def execXsWord (s : State) : Answer :=
  s.withXs fun v =>
    let d := xsNext v
    { s with xs := some d.2 }.answer (le64 d.1)

end Sys2Proof.Machine
end

