-- ==== Sys2Proof/Machine/Dispatch.lean ====
section
/-! DEFINITION. One arm per command, each a direct call of its meaning. -/

namespace Sys2Proof.Machine

def exec (i : Instr) (s : State) : Host.Outcome State Fault Refusal :=
  match i with
  -- 40_mt_core.md
  | .mtSeed seed => Sys2Proof.Machine.execMtSeed seed s
  | .mtWord => Sys2Proof.Machine.execMtWord s
  -- 41_mt_adapters.md
  | .mtWordb max => Sys2Proof.Machine.execMtWordb max s
  | .mtWordr min max => Sys2Proof.Machine.execMtWordr min max s
  | .mtInt => Sys2Proof.Machine.execMtInt s
  | .mtIntb max => Sys2Proof.Machine.execMtIntb max s
  | .mtIntr min max => Sys2Proof.Machine.execMtIntr min max s
  | .mtBytes len => Sys2Proof.Machine.execMtBytes len s
  | .mtF64 => Sys2Proof.Machine.execMtF64 s
  | .mtU64c => Sys2Proof.Machine.execMtU64c s
  -- 43_inspect.md
  | .mtRdseed => Sys2Proof.Machine.execMtRdseed s
  | .mtRdmti => Sys2Proof.Machine.execMtRdmti s
  | .mtRdst k => Sys2Proof.Machine.execMtRdst k s
  -- 42_xoshiro.md
  | .xsInit words => Sys2Proof.Machine.execXsInit words s
  | .xsWord => Sys2Proof.Machine.execXsWord s
  -- 43_inspect.md
  | .xsRdst k => Sys2Proof.Machine.execXsRdst k s
  | .rdstat => Sys2Proof.Machine.execRdstat s

end Sys2Proof.Machine
end

