-- ==== Sys2Proof/Machine/Step.lean ====
section
/-! DEFINITION. One step of an instance: the host's next act (20_memory.md R49, 70_reset_and_hazards.md R218). -/

namespace Sys2Proof.Machine

/-- One step. With nothing presented the block is idle and keeps its state (R195); a reset takes effect (R210); a
command frame is decoded before any state is looked at (R182) and executed, or answered with `ERR_ILLEGAL`. -/
def step (s : State) : Host.Outcome State Fault Refusal :=
  match s.takeEvent with
  | none => .next s
  | some (.reset, s') => .next s'.applyReset
  | some (.command f, s') =>
    match decode f with
    | .ok i => exec i s'
    | .error _ => s'.raise .errIllegal

/-- `s` with the frame of a table word presented next. -/
def State.withFetchWord (s : State) (nbits w : Nat) : State :=
  s.present (frameOfTableWord nbits w)

end Sys2Proof.Machine
end

