-- ==== Sys2Proof/Machine/Platform.lean ====
section
/-! DEFINITION. Several instances side by side (00_scope.md R10, 60_exceptions.md R193): the parameter INSTANCES is the `n` of
`Platform n`, and `Config.instances` is its default. -/

namespace Sys2Proof.Machine

/-- `n` independent instances, each a complete copy of the state with its own ports (R10). -/
structure Platform (n : Nat) where
  inst : Vector State n
  deriving DecidableEq, Repr

/-- Every instance right after reset. -/
def Platform.reset (n : Nat) : Platform n := ⟨Vector.replicate n State.reset⟩

/-- The platform at the spec's default number of instances. -/
def defaultPlatform : Platform Config.instances := Platform.reset Config.instances

/-- One step of instance `k`; the others are not touched (R193). -/
def Platform.stepAt {n : Nat} (p : Platform n) (k : Fin n) : Host.Outcome (Platform n) Fault Refusal :=
  match step p.inst[k] with
  | .next s => .next ⟨p.inst.set k s⟩
  | .fault r => .fault r
  | .refused r => .refused r

end Sys2Proof.Machine
end

