-- ==== Sys2Proof/Safety.lean ====
section
/-! DEFINITION. The terms the statements use: runs (70_reset_and_hazards.md R217), which command faults and how (60_exceptions.md R181,
R188), the invariants of 10_state.md R22 and R35, and the value of a binary64 number (00_scope.md R13). -/

namespace Sys2Proof.Machine

/-! ### Runs -/

/-- Commands executed one after another: the left fold of R49. -/
def execAll : List Instr → State → Answer
  | [], s => .next s
  | i :: is, s =>
    match exec i s with
    | .next t => execAll is t
    | .fault r => .fault r
    | .refused r => .refused r

/-- The state a run starts in: reset, and the frames the host is going to present (R217). -/
def runStart (frames : List Frame) : State :=
  { State.reset with pending := frames.map .command }

/-- A run is fault-free when every status byte of its result is `00` (R217). -/
def State.faultFree (s : State) : Bool := s.responses.all fun r => r.status == .ok

/-! ### Which command faults, and how (R181, R188), written from the table of R181 -/

/-- The commands that read or advance the MT generator (R181). -/
def usesMt (i : Instr) : Bool :=
  match i with
  | .mtWord | .mtWordb _ | .mtWordr _ _ | .mtInt | .mtIntb _ | .mtIntr _ _ | .mtBytes _ | .mtF64 | .mtU64c
  | .mtRdseed | .mtRdmti | .mtRdst _ => true
  | .mtSeed _ | .xsInit _ | .xsWord | .xsRdst _ | .rdstat => false

/-- The commands that read or advance the XS generator (R181). -/
def usesXs (i : Instr) : Bool :=
  match i with
  | .xsWord | .xsRdst _ => true
  | .mtSeed _ | .mtWord | .mtWordb _ | .mtWordr _ _ | .mtInt | .mtIntb _ | .mtIntr _ _ | .mtBytes _ | .mtF64 | .mtU64c
  | .mtRdseed | .mtRdmti | .mtRdst _ | .xsInit _ | .rdstat => false

/-- The operand tests of R181: `ERR_RANGE` of six commands and `ERR_INVALID_STATE` of `XS.INIT`; `none` when
the operands are within the contract. -/
def operandFault (i : Instr) : Option Status :=
  match i with
  | .mtWordb max => if max.toNat = 0 then some .errRange else none
  | .mtWordr min max => if max.toNat ≤ min.toNat then some .errRange else none
  | .mtIntb max => if max.toInt ≤ 0 then some .errRange else none
  | .mtIntr min max =>
    if max.toInt - min.toInt ≤ 0 ∨ 2147483647 < max.toInt - min.toInt then some .errRange else none
  | .mtRdst k => if 624 ≤ k.toNat then some .errRange else none
  | .xsRdst k => if 4 ≤ k.toNat then some .errRange else none
  | .xsInit words => if words.length = 4 then none else some .errInvalidState
  | .mtSeed _ | .mtWord | .mtInt | .mtBytes _ | .mtF64 | .mtU64c | .mtRdseed | .mtRdmti | .xsWord | .rdstat => none

/-- The status of a decoded command: the tests in the fixed order of R188 (its case 1 is the decoder's). -/
def statusOf (i : Instr) (s : State) : Status :=
  if usesMt i && !s.mtValid then .errNotInit
  else if usesXs i && !s.xsValid then .errNotInit
  else (operandFault i).getD .ok

/-- The payload length of a command that succeeds (R67, last column). -/
def payloadLength (i : Instr) : Nat :=
  match i with
  | .mtSeed _ | .xsInit _ => 0
  | .mtWord | .mtWordb _ | .mtWordr _ _ | .mtInt | .mtIntb _ | .mtIntr _ _ | .mtRdseed | .mtRdmti | .mtRdst _
  | .rdstat => 4
  | .mtF64 | .mtU64c | .xsWord | .xsRdst _ => 8
  | .mtBytes len => len.toNat

/-- The five inspection commands (43_inspect.md). -/
def isInspection (i : Instr) : Bool :=
  match i with
  | .mtRdseed | .mtRdmti | .mtRdst _ | .xsRdst _ | .rdstat => true
  | .mtSeed _ | .mtWord | .mtWordb _ | .mtWordr _ _ | .mtInt | .mtIntb _ | .mtIntr _ _ | .mtBytes _ | .mtF64 | .mtU64c
  | .xsInit _ | .xsWord => false

/-- The eight commands that make exactly one MT draw when they succeed (R34, R120). -/
def drawsOnce (i : Instr) : Bool :=
  match i with
  | .mtWord | .mtWordb _ | .mtWordr _ _ | .mtInt | .mtIntb _ | .mtIntr _ _ | .mtF64 | .mtU64c => true
  | .mtSeed _ | .mtBytes _ | .mtRdseed | .mtRdmti | .mtRdst _ | .xsInit _ | .xsWord | .xsRdst _ | .rdstat => false

/-! ### Invariants -/

/-- The cursor between commands: `1 .. 624` whenever `MT_VALID = 1` (R22, R161 "0 is never seen between commands"). -/
def CursorInRange (s : State) : Prop :=
  ∀ e : MtEngine, s.mt = some e → 1 ≤ e.mti.toNat ∧ e.mti.toNat ≤ 624

/-- The array after `k` twists, each of all 624 words (R92). -/
def twistTimes (k : Nat) (mt : MtArray) : MtArray := twistArray^[k] mt

/-- The array is the seed's fill after some number of twists, and a cursor other than 624 needs a twist
(R20, R35: the only way to set the MT state is `MT.SEED`). -/
def ArrayComesFromSeed (s : State) : Prop :=
  ∀ e : MtEngine, s.mt = some e →
    ∃ k : Nat, e.mt = twistTimes k (mtFill e.seed) ∧ (k = 0 → e.mti = 624#10)

/-! ### The twist as R92 writes it -/

/-- R92's assignment read as a relation: `new` is what a twist step writes when it reads `a`, `b` and `c`. -/
def TwistsTo (a b c new : U32) : Prop :=
  let y := (a &&& 0x80000000#32) ||| (b &&& 0x7FFFFFFF#32)
  new = c ^^^ (y >>> 1) ^^^ (if y.getLsbD 0 then 0x9908B0DF#32 else 0x00000000#32)

/-- Step `k` of R92's loop: it reads the array as the earlier steps left it and writes `mt[k]` in place. -/
def loopStep (mt : List U32) (k : Nat) : List U32 :=
  let y := (mt.getD k 0#32 &&& 0x80000000#32) ||| (mt.getD ((k + 1) % 624) 0#32 &&& 0x7FFFFFFF#32)
  mt.set k (mt.getD ((k + 397) % 624) 0#32 ^^^ (y >>> 1) ^^^ (if y &&& 1#32 = 1#32 then 0x9908B0DF#32 else 0x00000000#32))

/-- R92's loop: `for k = 0, 1, 2, ..., 623 in this order`. -/
def twistLoop (mt : List U32) : List U32 := (List.range 624).foldl loopStep mt

/-! ### Binary64 values -/

/-- The rational number an `F64` stands for. -/
def F64.value (x : F64) : ℚ := (x.mant : ℚ) * (2 : ℚ) ^ x.exp

/-- Zero, or a significand of exactly 53 bits. -/
def F64.Canonical (x : F64) : Prop :=
  (x.mant = 0 ∧ x.exp = 0) ∨ (2 ^ 52 ≤ x.mant ∧ x.mant < 2 ^ 53)

/-- `x` is `q` rounded to nearest, ties to even (R13): no binary64 value lies nearer to `q`, and where another
lies equally near, `x` is the one with the even significand. -/
def F64.IsNearest (x : F64) (q : ℚ) : Prop :=
  x.Canonical ∧ ∀ y : F64, y.Canonical →
    |q - x.value| ≤ |q - y.value| ∧ (|q - x.value| = |q - y.value| → y = x ∨ x.mant % 2 = 0)

end Sys2Proof.Machine
end

