-- ==== Sys2Proof/Certificates/Slice0/Obligations.lean ====
section
/-! DEFINITION. The statements about RNG-CORE, each with the rule of spec/ it formalises. A draw command's statement names the word `W` by
what `MT.WORD` answers in the same state, so that it says which draw the command consumes (41_mt_adapters.md R120). -/

open Sys2Proof Sys2Proof.Machine

/-! ### Reset, the step and the port -/

/-- R31, R210, R211: reset leaves both valid flags 0 and no content, in the state after reset and whenever the host resets;
a reset produces no response. That the host's later acts stay on the port and the earlier responses stay answered is
the model's choice (log entries 2 and 3). -/
def Obligations.ResetLeavesNoContent : Prop :=
  (State.reset.mtValid = false ∧ State.reset.xsValid = false ∧ State.reset.mt = none ∧ State.reset.xs = none) ∧
  ∀ (s : State) (rest : List HostEvent), s.pending = .reset :: rest →
    step s = .next { s with mt := none, xs := none, pending := rest }

/-- R182, R195, R51: a presented frame that decodes to a well-formed command is executed by `exec` in the state with the
frame taken off the port; one that does not decode is answered with `ERR_ILLEGAL` alone; with nothing presented the block keeps its state. -/
def Obligations.StepRunsTheDecodedCommand : Prop :=
  ∀ s : State,
    (∀ (f : Frame) (rest : List HostEvent) (i : Instr), s.pending = .command f :: rest → decode f = .ok i →
      i.wellFormed = true → step s = exec i { s with pending := rest }) ∧
    (∀ (f : Frame) (rest : List HostEvent) (x : Illegal), s.pending = .command f :: rest → decode f = .error x →
      step s = .next { s with pending := rest, responses := s.responses ++ [⟨.errIllegal, []⟩] }) ∧
    (s.pending = [] → step s = .next s)

/-- R50, R180: the step function is total: every state has a next state, whatever the host does. -/
def Obligations.StepAlwaysAnswersANextState : Prop :=
  ∀ s : State, ∃ t : State, step s = .next t

/-- R66: a step that takes a command frame produces exactly one response, whose payload is empty unless the status is `OK`,
and whose frame is its status byte followed by its payload. -/
def Obligations.OneResponseFramePerCommandFrame : Prop :=
  ∀ (s : State) (f : Frame) (rest : List HostEvent), s.pending = .command f :: rest →
    ∃ (t : State) (r : Response), step s = .next t ∧ t.pending = rest ∧ t.responses = s.responses ++ [r] ∧
      responseFrame r = statusByte r.status :: r.payload ∧ (r.status ≠ .ok → responseFrame r = [statusByte r.status]) ∧
      (r.status = .ok → ∃ i : Instr, decode f = .ok i ∧ r.payload.length = payloadLength i)

/-- R49: a sequence of commands at the port takes effect as the left fold of the per-command step, in the order presented. That the frames
still to be presented stand in `pending` is the model's choice (log entry 2). -/
def Obligations.PortRunIsTheLeftFoldOfCommands : Prop :=
  ∀ (is : List Instr) (s : State), s.pending = is.map (fun i => HostEvent.command (encode i)) →
    Host.Core.run Sys2Proof.core is.length s = execAll is { s with pending := [] }

/-- R217, R56: a finite sequence of frames of any bytes ends, with one response a frame and nothing pending. That the frames and the
responses stand in `pending` and `responses` is the model's choice (log entries 2 and 3). -/
def Obligations.EveryFrameSequenceIsAnsweredWhole : Prop :=
  ∀ (frames : List Frame) (s : State), s.pending = frames.map HostEvent.command →
    ∃ t : State, Host.Core.run Sys2Proof.core frames.length s = .next t ∧ t.pending = [] ∧
      ∃ rs : List Response, t.responses = s.responses ++ rs ∧ rs.length = frames.length

/-! ### Encoding -/

/-- R71, R61 to R65, R68: decoding the frame of a command gives the command back, every operand at every value. -/
def Obligations.DecodingAnEncodedCommandGivesItBack : Prop :=
  ∀ i : Instr, i.wellFormed = true → decode (encode i) = .ok i

/-- R71: each command with its operands has exactly one frame: a frame that decodes is the encoding of what it decodes to. -/
def Obligations.ADecodableFrameIsTheEncoding : Prop :=
  ∀ (f : Frame) (i : Instr), decode f = .ok i → f = encode i

/-- R69: a frame decodes exactly when none of (a) to (f) holds of it, and an illegal one is answered with `ERR_ILLEGAL` and changes no state.
(A presented frame is the head of `pending`: log entry 2.) -/
def Obligations.ExactlyTheLegalFramesDecode : Prop :=
  (∀ f : Frame, frameLegal f = true ↔ ∃ i : Instr, decode f = .ok i) ∧
  ∀ (s : State) (f : Frame) (rest : List HostEvent), s.pending = .command f :: rest → frameLegal f = false →
    step s = .next { s with pending := rest, responses := s.responses ++ [⟨.errIllegal, []⟩] }

/-- 95_test_vectors.md 2.7: frames written out byte by byte decode to the commands they stand for. -/
def Obligations.WrittenOutFramesDecode : Prop :=
  decode [0x10#8, 0x05#8, 0x11#8, 0x00#8, 0x00#8] = .ok (.mtSeed 4357#32) ∧
  decode [0x13#8, 0x0A#8, 0x00#8, 0x00#8, 0x00#8, 0x14#8, 0x00#8, 0x00#8, 0x00#8] = .ok (.mtWordr 10#32 20#32) ∧
  decode [0x16#8, 0xF6#8, 0xFF#8, 0xFF#8, 0xFF#8, 0x0A#8, 0x00#8, 0x00#8, 0x00#8] = .ok (.mtIntr 0xFFFFFFF6#32 10#32) ∧
  decode [0x20#8] = .ok (.xsInit []) ∧
  decode [0x22#8, 0x03#8, 0x00#8, 0x00#8, 0x00#8] = .ok (.xsRdst 3#32) ∧
  decode [0x30#8] = .ok .rdstat ∧
  decode [0x11#8, 0x00#8] = .error (.badLength .z 2)

/-! ### Faults -/

/-- R188, R181: the tests of a command are made in the fixed order decode, valid flag, operands, and the first that fails is
reported; a command none of whose tests fails answers `OK`. -/
def Obligations.FirstFailingTestIsReported : Prop :=
  (∀ (s : State) (f : Frame) (rest : List HostEvent) (x : Illegal), s.pending = .command f :: rest → decode f = .error x →
    ∃ t : State, step s = .next t ∧ t.responses = s.responses ++ [⟨.errIllegal, []⟩]) ∧
  ∀ (i : Instr) (s : State), ∃ (t : State) (payload : List Byte),
    exec i s = .next t ∧ t.responses = s.responses ++ [⟨statusOf i s, payload⟩]

/-- R187: a command that faults writes no word of `mt` or `s`, keeps `mti`, `seed` and both valid flags, consumes no draw,
and answers with its status byte alone; so does a frame that does not decode. (A presented frame is the head of `pending`: log entry 2.) -/
def Obligations.AFaultChangesNothing : Prop :=
  (∀ (i : Instr) (s : State), statusOf i s ≠ .ok →
    exec i s = .next { s with responses := s.responses ++ [⟨statusOf i s, []⟩] }) ∧
  ∀ (s : State) (f : Frame) (rest : List HostEvent) (x : Illegal), s.pending = .command f :: rest → decode f = .error x →
    step s = .next { s with pending := rest, responses := s.responses ++ [⟨.errIllegal, []⟩] }

/-- R183: the commands that use a generator whose valid flag is 0 answer `ERR_NOT_INIT`, whatever their operands, and no other command does;
`MT.SEED` and a successful `XS.INIT` clear the condition. -/
def Obligations.UnconstructedGeneratorIsRefused : Prop :=
  (∀ (i : Instr) (s : State),
    ((usesMt i = true ∧ s.mt = none) ∨ (usesXs i = true ∧ s.xs = none)) →
      exec i s = .next { s with responses := s.responses ++ [⟨.errNotInit, []⟩] }) ∧
  (∀ (i : Instr) (s : State), ¬((usesMt i = true ∧ s.mt = none) ∨ (usesXs i = true ∧ s.xs = none)) →
    ∃ (t : State) (r : Response), exec i s = .next t ∧ t.responses = s.responses ++ [r] ∧ r.status ≠ .errNotInit) ∧
  (∀ (a : U32) (s : State), ∃ t : State, exec (.mtSeed a) s = .next t ∧ t.mtValid = true ∧ t.xs = s.xs) ∧
  (∀ (words : List U64) (s : State), words.length = 4 →
    ∃ t : State, exec (.xsInit words) s = .next t ∧ t.xsValid = true ∧ t.mt = s.mt)

/-- R67: the payload of a successful command has the length of the rule's last column. -/
def Obligations.PayloadLengthsAreTheTables : Prop :=
  ∀ (i : Instr) (s : State), statusOf i s = .ok →
    ∃ (t : State) (payload : List Byte), exec i s = .next t ∧ t.responses = s.responses ++ [⟨.ok, payload⟩] ∧
      payload.length = payloadLength i

/-! ### Frames and isolation -/

/-- R30: no MT command reads or writes XS state and no XS command reads or writes MT state: such a command leaves the other engine as it
was, and does the same whatever the other engine holds. -/
def Obligations.TheEnginesNeverInteract : Prop :=
  ∀ (i : Instr) (s : State), ∃ t : State, exec i s = .next t ∧
    ((usesMt i = true ∨ ∃ a, i = .mtSeed a) → t.xs = s.xs ∧ ∀ x, exec i { s with xs := x } = .next { t with xs := x }) ∧
    ((usesXs i = true ∨ ∃ ws, i = .xsInit ws) → t.mt = s.mt ∧ ∀ m, exec i { s with mt := m } = .next { t with mt := m })

/-- R29: the only history a response depends on is the state of R20: two states with the same engines give the same response and the same engines. -/
def Obligations.OnlyTheEnginesDecideTheResponse : Prop :=
  ∀ (i : Instr) (s u : State), s.mt = u.mt → s.xs = u.xs →
    ∃ (m : Option MtEngine) (x : Option (Vector U64 4)) (r : Response),
      exec i s = .next { s with mt := m, xs := x, responses := s.responses ++ [r] } ∧
      exec i u = .next { u with mt := m, xs := x, responses := u.responses ++ [r] }

/-- R23, R215: only `MT.SEED` changes the seed register, and it stores its operand. -/
def Obligations.OnlySeedingChangesTheSeed : Prop :=
  ∀ (i : Instr) (s : State) (e : MtEngine), s.mt = some e →
    ∃ (t : State) (e' : MtEngine), exec i s = .next t ∧ t.mt = some e' ∧
      ((∀ a, i ≠ .mtSeed a) → e'.seed = e.seed) ∧ (∀ a, i = .mtSeed a → e'.seed = a)

/-- R25, R26, R33: only reset clears a valid flag; `MT_VALID` is set by `MT.SEED` alone and `XS_VALID` by a four-word `XS.INIT` alone. -/
def Obligations.ValidFlagsFollowSeedInitAndReset : Prop :=
  ∀ s t : State, step s = .next t →
    ((s.mtValid = true ∧ t.mtValid = false ∨ s.xsValid = true ∧ t.xsValid = false) → s.pending.head? = some .reset) ∧
    (s.mtValid = false → t.mtValid = true → ∃ a, s.pending.head? = some (.command (encode (.mtSeed a)))) ∧
    (s.xsValid = false → t.xsValid = true →
      ∃ ws : List U64, ws.length = 4 ∧ s.pending.head? = some (.command (encode (.xsInit ws))))

/-- R46: an inspection command changes no state, and issuing it again returns the same value. -/
def Obligations.InspectionHasNoSideEffect : Prop :=
  ∀ (i : Instr) (s : State), isInspection i = true →
    ∃ r : Response, exec i s = .next { s with responses := s.responses ++ [r] } ∧
      exec i { s with responses := s.responses ++ [r] } = .next { s with responses := s.responses ++ [r, r] }

/-- R21, R34: a successful command that draws once, and `MT.BYTES`, change of the MT engine only `mti` while the words
of the array last, and leave `seed`, the XS engine and the port as they were. -/
def Obligations.DrawsBeforeTheTwistMoveOnlyTheCursor : Prop :=
  ∀ (s : State) (e : MtEngine), s.mt = some e →
    (∀ i : Instr, drawsOnce i = true → statusOf i s = .ok → e.mti.toNat < 624 →
      ∃ payload : List Byte, exec i s =
        .next { s with mt := some { e with mti := e.mti + 1#10 }, responses := s.responses ++ [⟨.ok, payload⟩] }) ∧
    (∀ len : U32, e.mti.toNat + len.toNat ≤ 624 →
      ∃ payload : List Byte, exec (.mtBytes len) s =
        .next { s with mt := some { e with mti := BitVec.ofNat 10 (e.mti.toNat + len.toNat) },
                       responses := s.responses ++ [⟨.ok, payload⟩] })

/-- R193, R10: a step of one instance is that instance's step and leaves every other instance as it was. -/
def Obligations.InstancesShareNothing : Prop :=
  ∀ (n : Nat) (p : Platform n) (k : Fin n), ∃ t : Platform n, p.stepAt k = .next t ∧
    step p.inst[k] = .next t.inst[k] ∧ ∀ j : Fin n, j ≠ k → t.inst[j] = p.inst[j]

/-! ### Invariants -/

/-- R22: the cursor is in range right after reset (no generator exists there). -/
def Obligations.CursorIsInRangeAtReset : Prop :=
  CursorInRange State.reset ∧ ArrayComesFromSeed State.reset

/-- R22, R161: every step keeps the cursor in `1 .. 624`: 0 and the values from 625 on are never seen between commands. -/
def Obligations.EveryStepKeepsTheCursorInRange : Prop :=
  ∀ s t : State, CursorInRange s → step s = .next t → CursorInRange t

/-- R20, R29, R35: every step keeps the MT array a number of whole twists away from the fill of the stored seed; an array that has not been
twisted has its cursor at 624. -/
def Obligations.EveryStepKeepsTheArrayOfItsSeed : Prop :=
  ∀ s t : State, ArrayComesFromSeed s → step s = .next t → ArrayComesFromSeed t

/-! ### The MT engine core -/

/-- R90, R91: `MT.SEED` stores the seed, fills the array by the recurrence, sets the cursor to 624 and the valid flag, touches nothing else and never faults;
word `i` of the fill is `69069^i * seed` modulo `2^32`. -/
def Obligations.MtSeedFillsTheArray : Prop :=
  ∀ (a : U32) (s : State), ∃ fill : MtArray,
    exec (.mtSeed a) s =
      .next { s with mt := some { mt := fill, mti := 624#10, seed := a }, responses := s.responses ++ [⟨.ok, []⟩] } ∧
    fill.word 0 = a ∧
    (∀ i : Nat, i < 623 → fill.word (i + 1) = BitVec.ofNat 32 (69069 * (fill.word i).toNat)) ∧
    (∀ i : Nat, i < 624 → fill.word i = BitVec.ofNat 32 (69069 ^ i * a.toNat))

/-- R92: the twist is the loop of the rule, over `k = 0, 1, ..., 623` in this order and in place, and it sets the cursor to 0; the seed stays. -/
def Obligations.TheTwistIsTheInPlaceLoop : Prop :=
  ∀ e : MtEngine, (mtTwist e).mt.words = twistLoop e.mt.words ∧ (mtTwist e).mti = 0#10 ∧ (mtTwist e).seed = e.seed

/-- R93: of the array `mt_twist` leaves, words 0 to 226 come from the old array, words 227 to 622 read the new word 227 places below, and word 623 reads
the new words 0 and 396. -/
def Obligations.LaterTwistStepsReadRewrittenWords : Prop :=
  ∀ e : MtEngine,
    (∀ k : Nat, k < 227 →
      TwistsTo (e.mt.word k) (e.mt.word (k + 1)) (e.mt.word (k + 397)) ((mtTwist e).mt.word k)) ∧
    (∀ k : Nat, 227 ≤ k → k < 623 →
      TwistsTo (e.mt.word k) (e.mt.word (k + 1)) ((mtTwist e).mt.word (k - 227)) ((mtTwist e).mt.word k)) ∧
    TwistsTo (e.mt.word 623) ((mtTwist e).mt.word 0) ((mtTwist e).mt.word 396) ((mtTwist e).mt.word 623)

/-- R94: tempering is a bijection on 32-bit words, so every word is a possible draw. -/
def Obligations.TemperingIsABijection : Prop := Function.Bijective temper

/-- R95, R96: `MT.WORD` answers the tempered word at the cursor and moves the cursor by one; at 624 it twists first, answers word 0 of the
twisted array and leaves the cursor at 1; before any `MT.SEED` it answers `ERR_NOT_INIT`. -/
def Obligations.MtWordAnswersTheTemperedCursorWord : Prop :=
  ∀ s : State,
    (s.mt = none → exec .mtWord s = .next { s with responses := s.responses ++ [⟨.errNotInit, []⟩] }) ∧
    (∀ e : MtEngine, s.mt = some e → e.mti.toNat < 624 →
      exec .mtWord s = .next { s with mt := some { e with mti := e.mti + 1#10 },
                                      responses := s.responses ++ [⟨.ok, le32 (temper (e.mt.word e.mti.toNat))⟩] }) ∧
    (∀ e : MtEngine, s.mt = some e → 624 ≤ e.mti.toNat →
      exec .mtWord s = .next { s with mt := some { mt := twistArray e.mt, mti := 1#10, seed := e.seed },
                                      responses := s.responses ++ [⟨.ok, le32 (temper ((twistArray e.mt).word 0))⟩] })

/-- R97: `MT.SEED a` followed by any draws and other MT commands gives the same responses and the same MT engine whatever came before. -/
def Obligations.ReseedingForgetsTheHistory : Prop :=
  ∀ (a : U32) (is : List Instr) (s u : State), (∀ i ∈ is, usesMt i = true) → ∃ (e : MtEngine) (rs : List Response),
    execAll (.mtSeed a :: is) s = .next { s with mt := some e, responses := s.responses ++ rs } ∧
    execAll (.mtSeed a :: is) u = .next { u with mt := some e, responses := u.responses ++ rs } ∧ rs.length = is.length + 1

/-- R98: after `MT.SEED` and `d ≥ 1` draws the cursor is `((d - 1) mod 624) + 1` and the array has been twisted once for each of the draws
1, 625, 1249, ...; `n` draws from cursor `c` make `floor((c + n - 1) / 624)` twists, and none when `n = 0`. -/
def Obligations.TheTwistComesEvery624Draws : Prop :=
  (∀ (a : U32) (d : Nat) (s : State), 1 ≤ d → ∃ (t : State) (e : MtEngine),
    execAll (.mtSeed a :: List.replicate d .mtWord) s = .next t ∧ t.mt = some e ∧
    e.mti.toNat = (d - 1) % 624 + 1 ∧ e.mt = twistTimes ((d + 623) / 624) (mtFill a)) ∧
  (∀ (s : State) (e : MtEngine), s.mt = some e → exec (.mtBytes 0#32) s =
    .next { s with responses := s.responses ++ [⟨.ok, []⟩] }) ∧
  (∀ (s : State) (e : MtEngine) (n : U32), s.mt = some e → e.mti.toNat ≤ 624 → 1 ≤ n.toNat →
    ∃ payload : List Byte, exec (.mtBytes n) s =
      .next { s with mt := some { e with mt := twistTimes ((e.mti.toNat + n.toNat - 1) / 624) e.mt,
                                         mti := BitVec.ofNat 10 ((e.mti.toNat + n.toNat - 1) % 624 + 1) },
                     responses := s.responses ++ [⟨.ok, payload⟩] })

/-- R99: seed 0 gives the all-zero array and zeros for ever; seed `0x80000000` gives 624 copies of itself, then by runs the array of the
rule, and the first 227 draws all answer `0xCC183306`. -/
def Obligations.DegenerateSeedsBehaveAsDerived : Prop :=
  (∀ (n : Nat) (s : State), ∃ e : MtEngine,
    execAll (.mtSeed 0#32 :: List.replicate n .mtWord) s =
      .next { s with mt := some e,
                     responses := s.responses ++ ⟨.ok, []⟩ :: List.replicate n ⟨.ok, [0#8, 0#8, 0#8, 0#8]⟩ } ∧
    e.mt.words = List.replicate 624 0#32) ∧
  (mtFill 0x80000000#32).words = List.replicate 624 0x80000000#32 ∧
  (twistArray (mtFill 0x80000000#32)).words =
    List.replicate 227 0xC0000000#32 ++ List.replicate 227 0x80000000#32 ++ List.replicate 169 0xC0000000#32 ++ [0xE0000000#32] ∧
  (∀ (n : Nat) (s : State), n ≤ 227 → ∃ e : MtEngine,
    execAll (.mtSeed 0x80000000#32 :: List.replicate n .mtWord) s =
      .next { s with mt := some e,
                     responses := s.responses ++ ⟨.ok, []⟩ :: List.replicate n ⟨.ok, [0x06#8, 0x33#8, 0x18#8, 0xCC#8]⟩ })

/-! ### Binary64 -/

/-- R13: `cvt` is exact below `2^53`. -/
def Obligations.CvtIsExact : Prop :=
  ∀ v : Nat, v < 2 ^ 53 → (cvt v).Canonical ∧ (cvt v).value = (v : ℚ)

/-- R13, R121: `fdiv` is the quotient rounded once, to nearest with ties to even. Operands and result are numbers of the model's format, whose
exponent has no bounds (log entry 8, DEDUCED): it is binary64 division in the ranges of R121, which are all that the commands reach, and
says nothing of binary64 where that overflows or underflows. -/
def Obligations.FdivRoundsOnceToNearestEven : Prop :=
  ∀ a b : F64, a.Canonical → b.Canonical → b.mant ≠ 0 → (fdiv a b).IsNearest (a.value / b.value)

/-- R13, R121: `fmul` is the product rounded once, to nearest with ties to even. Operands and result are numbers of the model's format, whose
exponent has no bounds (log entry 8, DEDUCED): it is binary64 multiplication in the ranges of R121, which are all that the commands reach, and
says nothing of binary64 where that overflows or underflows. -/
def Obligations.FmulRoundsOnceToNearestEven : Prop :=
  ∀ a b : F64, a.Canonical → b.Canonical → (fmul a b).IsNearest (a.value * b.value)

/-- R13: `trunc` is the largest integer not above its argument, a number of the model's format, whose exponent has no bounds (log entry 8,
DEDUCED). -/
def Obligations.TruncIsTheFloor : Prop :=
  ∀ x : F64, x.Canonical → (trunc x : ℤ) = ⌊x.value⌋

/-- R13: the fields of `bits(x)`: sign bit 63, exponent bits 62:52 with bias 1023, fraction bits 51:0; zero is all zeros. -/
def Obligations.FloatBitsHaveTheBinary64Fields : Prop :=
  f64Bits ⟨0, 0⟩ = 0#64 ∧
  ∀ x : F64, x.Canonical → x.mant ≠ 0 → -1022 ≤ x.exp + 52 → x.exp + 52 ≤ 1023 →
    (f64Bits x).extractLsb' 63 1 = 0#1 ∧
    ((f64Bits x).extractLsb' 52 11).toNat = x.exp + 52 + 1023 ∧
    ((f64Bits x).extractLsb' 0 52).toNat + 2 ^ 52 = x.mant

/-- R121: every quotient of the adapters is 0 or in `[2^-33, 1]` and every product 0 or in `[2^-33, 10^12]`: no overflow, no subnormal. -/
def Obligations.AdapterFloatsStayNormal : Prop :=
  ∀ (W : U32) (r : Nat), (1 ≤ r ∧ r < 2 ^ 32) ∨ r = 1000000000000 →
    let q := fdiv (cvt W.toNat) (cvt 4294967295)
    let p := fmul q (cvt r)
    (q.value = 0 ∨ (1 / 2 ^ 33 ≤ q.value ∧ q.value ≤ 1)) ∧
    (p.value = 0 ∨ (1 / 2 ^ 33 ≤ p.value ∧ p.value ≤ 1000000000000))

/-! ### The MT adapters -/

/-- R111: the bounds of `rescale`: it lies in `[0, r]`, is 0 at word 0, is `r` at word `0xFFFFFFFF` and at most `r - 1` at every other word, and
does not decrease in the word. -/
def Obligations.RescaleIsBoundedAndMonotone : Prop :=
  ∀ r : Nat, 1 ≤ r → r < 2 ^ 32 →
    (∀ W : U32, rescale W r ≤ r) ∧ rescale 0#32 r = 0 ∧ rescale 0xFFFFFFFF#32 r = r ∧
    (∀ W : U32, W.toNat ≤ 0xFFFFFFFE → rescale W r ≤ r - 1) ∧
    (∀ V W : U32, V.toNat ≤ W.toNat → rescale V r ≤ rescale W r)

/-- R120: each of the eight one-draw commands, when it succeeds, consumes the draw `MT.WORD` would make in the same state, and its payload is a
function of that word and the operands alone. -/
def Obligations.AdaptersConsumeTheDrawOfMtWord : Prop :=
  ∀ i : Instr, drawsOnce i = true → ∃ payload : U32 → List Byte, ∀ s : State, statusOf i s = .ok →
    ∃ (W : U32) (e : MtEngine),
      exec .mtWord s = .next { s with mt := some e, responses := s.responses ++ [⟨.ok, le32 W⟩] } ∧
      exec i s = .next { s with mt := some e, responses := s.responses ++ [⟨.ok, payload W⟩] }

/-- R112, with R110's two rounded operations: `MT.WORDB max` answers `trunc((W / 4294967295.0) * max)`, an integer in `[0, max]` that is `max` only for the
word `0xFFFFFFFF`; `max = 0` is `ERR_RANGE` before any draw. -/
def Obligations.MtWordbAnswersTheRescaledDraw : Prop :=
  ∀ (max : U32) (s : State),
    (s.mt = none → exec (.mtWordb max) s = .next { s with responses := s.responses ++ [⟨.errNotInit, []⟩] }) ∧
    (s.mt ≠ none → max = 0#32 → exec (.mtWordb max) s = .next { s with responses := s.responses ++ [⟨.errRange, []⟩] }) ∧
    (s.mt ≠ none → max ≠ 0#32 → ∃ (W v : U32) (e : MtEngine),
      exec .mtWord s = .next { s with mt := some e, responses := s.responses ++ [⟨.ok, le32 W⟩] } ∧
      exec (.mtWordb max) s = .next { s with mt := some e, responses := s.responses ++ [⟨.ok, le32 v⟩] } ∧
      v.toNat = trunc (fmul (fdiv (cvt W.toNat) (cvt 4294967295)) (cvt max.toNat)) ∧
      v.toNat ≤ max.toNat ∧ (v = max ↔ W = 0xFFFFFFFF#32))

/-- R113: `MT.WORDR min, max` answers `min + rescale(W, max - min)` in `[min, max]`, `max` only for the word `0xFFFFFFFF`;
`max ≤ min` is `ERR_RANGE` before any draw. -/
def Obligations.MtWordrAnswersInTheRange : Prop :=
  ∀ (min max : U32) (s : State),
    (s.mt = none → exec (.mtWordr min max) s = .next { s with responses := s.responses ++ [⟨.errNotInit, []⟩] }) ∧
    (s.mt ≠ none → max.toNat ≤ min.toNat →
      exec (.mtWordr min max) s = .next { s with responses := s.responses ++ [⟨.errRange, []⟩] }) ∧
    (s.mt ≠ none → min.toNat < max.toNat → ∃ (W v : U32) (e : MtEngine),
      exec .mtWord s = .next { s with mt := some e, responses := s.responses ++ [⟨.ok, le32 W⟩] } ∧
      exec (.mtWordr min max) s = .next { s with mt := some e, responses := s.responses ++ [⟨.ok, le32 v⟩] } ∧
      v.toNat = min.toNat + trunc (fmul (fdiv (cvt W.toNat) (cvt 4294967295)) (cvt (max.toNat - min.toNat))) ∧
      v.toNat ≤ max.toNat ∧ (v = max ↔ W = 0xFFFFFFFF#32))

/-- R114: `MT.INT` answers the raw word divided by two, rounded down, never negative. -/
def Obligations.MtIntAnswersHalfTheDraw : Prop :=
  ∀ s : State,
    (s.mt = none → exec .mtInt s = .next { s with responses := s.responses ++ [⟨.errNotInit, []⟩] }) ∧
    (s.mt ≠ none → ∃ (W v : U32) (e : MtEngine),
      exec .mtWord s = .next { s with mt := some e, responses := s.responses ++ [⟨.ok, le32 W⟩] } ∧
      exec .mtInt s = .next { s with mt := some e, responses := s.responses ++ [⟨.ok, le32 v⟩] } ∧
      v.toInt = (W.toNat / 2 : Nat) ∧ 0 ≤ v.toInt)

/-- R115: `MT.INTB max` reads `max` as signed and answers `rescale(W, max)` in `[0, max]`, `max` only for the word `0xFFFFFFFF`;
`max ≤ 0` is `ERR_RANGE` before any draw. -/
def Obligations.MtIntbAnswersTheRescaledDraw : Prop :=
  ∀ (max : U32) (s : State),
    (s.mt = none → exec (.mtIntb max) s = .next { s with responses := s.responses ++ [⟨.errNotInit, []⟩] }) ∧
    (s.mt ≠ none → max.toInt ≤ 0 → exec (.mtIntb max) s = .next { s with responses := s.responses ++ [⟨.errRange, []⟩] }) ∧
    (s.mt ≠ none → 0 < max.toInt → ∃ (W v : U32) (e : MtEngine),
      exec .mtWord s = .next { s with mt := some e, responses := s.responses ++ [⟨.ok, le32 W⟩] } ∧
      exec (.mtIntb max) s = .next { s with mt := some e, responses := s.responses ++ [⟨.ok, le32 v⟩] } ∧
      v.toInt = trunc (fmul (fdiv (cvt W.toNat) (cvt 4294967295)) (cvt max.toInt.toNat)) ∧
      0 ≤ v.toInt ∧ v.toInt ≤ max.toInt ∧ (v = max ↔ W = 0xFFFFFFFF#32))

/-- R116: `MT.INTR min, max` reads both as signed and answers the two's complement of `min + rescale(W, max - min)`, in `[min, max]`; a range `max - min` that is not
in `1 .. 2147483647` is `ERR_RANGE` before any draw. -/
def Obligations.MtIntrAnswersInTheSignedRange : Prop :=
  ∀ (min max : U32) (s : State),
    (s.mt = none → exec (.mtIntr min max) s = .next { s with responses := s.responses ++ [⟨.errNotInit, []⟩] }) ∧
    (s.mt ≠ none → (max.toInt - min.toInt ≤ 0 ∨ 2147483647 < max.toInt - min.toInt) →
      exec (.mtIntr min max) s = .next { s with responses := s.responses ++ [⟨.errRange, []⟩] }) ∧
    (s.mt ≠ none → 0 < max.toInt - min.toInt → max.toInt - min.toInt ≤ 2147483647 → ∃ (W v : U32) (e : MtEngine),
      exec .mtWord s = .next { s with mt := some e, responses := s.responses ++ [⟨.ok, le32 W⟩] } ∧
      exec (.mtIntr min max) s = .next { s with mt := some e, responses := s.responses ++ [⟨.ok, le32 v⟩] } ∧
      v.toInt = min.toInt +
        trunc (fmul (fdiv (cvt W.toNat) (cvt 4294967295)) (cvt (max.toInt - min.toInt).toNat)) ∧
      min.toInt ≤ v.toInt ∧ v.toInt ≤ max.toInt ∧ (v = max ↔ W = 0xFFFFFFFF#32))

/-- R117: `MT.BYTES len` answers `len` bytes, byte `i` being `W div 16843009` of the `(i+1)`-th of the `len` words that `len` commands `MT.WORD`
would answer, and leaves the engine as they would. -/
def Obligations.MtBytesDividesSuccessiveDraws : Prop :=
  ∀ (len : U32) (s : State),
    (s.mt = none → exec (.mtBytes len) s = .next { s with responses := s.responses ++ [⟨.errNotInit, []⟩] }) ∧
    (s.mt ≠ none → ∃ (ws : List U32) (m : Option MtEngine), ws.length = len.toNat ∧
      execAll (List.replicate len.toNat .mtWord) s =
        .next { s with mt := m, responses := s.responses ++ ws.map (fun W => ⟨.ok, le32 W⟩) } ∧
      exec (.mtBytes len) s =
        .next { s with mt := m,
                       responses := s.responses ++ [⟨.ok, ws.map (fun W => BitVec.ofNat 8 (W.toNat / 16843009))⟩] })

/-- R117: the byte of a word is below 256, equals the truncated binary64 quotient, is 255 exactly for `0xFFFFFFFF` and 0 exactly
below 16843009. -/
def Obligations.ByteIsTheTruncatedFloatQuotient : Prop :=
  ∀ W : U32, (byteOf W).toNat = W.toNat / 16843009 ∧
    (byteOf W).toNat = trunc (fdiv (cvt W.toNat) (fdiv (cvt 4294967295) (cvt 255))) ∧
    (byteOf W = 255#8 ↔ W = 0xFFFFFFFF#32) ∧ (byteOf W = 0#8 ↔ W.toNat < 16843009)

/-- R118: `MT.F64` answers the bits of the binary64 number nearest to `W / 4294967295`; it is 0.0 exactly for word 0, 1.0 exactly for word
`0xFFFFFFFF`, and different words give different floats. -/
def Obligations.MtF64AnswersTheUnitFloat : Prop :=
  (∀ s : State,
    (s.mt = none → exec .mtF64 s = .next { s with responses := s.responses ++ [⟨.errNotInit, []⟩] }) ∧
    (s.mt ≠ none → ∃ (W : U32) (e : MtEngine) (d : F64),
      exec .mtWord s = .next { s with mt := some e, responses := s.responses ++ [⟨.ok, le32 W⟩] } ∧
      exec .mtF64 s = .next { s with mt := some e, responses := s.responses ++ [⟨.ok, le64 (f64Bits d)⟩] } ∧
      d = fdiv (cvt W.toNat) (cvt 4294967295) ∧ d.IsNearest ((W.toNat : ℚ) / 4294967295))) ∧
  (∀ W : U32, (f64Bits (unitFloat W) = 0x0000000000000000#64 ↔ W = 0#32) ∧
    (f64Bits (unitFloat W) = 0x3FF0000000000000#64 ↔ W = 0xFFFFFFFF#32)) ∧
  (∀ V W : U32, f64Bits (unitFloat V) = f64Bits (unitFloat W) → V = W)

/-- R119: `MT.U64C` answers `trunc((W / 4294967295.0) * 10^12)` with one draw: at most `10^12`, that value only for word `0xFFFFFFFF`,
and 0 for word 0. -/
def Obligations.MtU64cAnswersTheCoarseValue : Prop :=
  ∀ s : State,
    (s.mt = none → exec .mtU64c s = .next { s with responses := s.responses ++ [⟨.errNotInit, []⟩] }) ∧
    (s.mt ≠ none → ∃ (W : U32) (v : U64) (e : MtEngine),
      exec .mtWord s = .next { s with mt := some e, responses := s.responses ++ [⟨.ok, le32 W⟩] } ∧
      exec .mtU64c s = .next { s with mt := some e, responses := s.responses ++ [⟨.ok, le64 v⟩] } ∧
      v.toNat = trunc (fmul (fdiv (cvt W.toNat) (cvt 4294967295)) (cvt 1000000000000)) ∧
      v.toNat ≤ 1000000000000 ∧ (v = 0x000000E8D4A51000#64 ↔ W = 0xFFFFFFFF#32) ∧ (W = 0#32 → v = 0#64))

/-! ### The XS engine -/

/-- R140: `XS.INIT` loads exactly four words and sets the valid flag, whatever was there; any other word count is `ERR_INVALID_STATE` and changes nothing. -/
def Obligations.XsInitLoadsExactlyFourWords : Prop :=
  ∀ (words : List U64) (s : State),
    (words.length ≠ 4 → exec (.xsInit words) s = .next { s with responses := s.responses ++ [⟨.errInvalidState, []⟩] }) ∧
    (∀ _ : words.length = 4, exec (.xsInit words) s =
      .next { s with xs := some #v[words[0], words[1], words[2], words[3]], responses := s.responses ++ [⟨.ok, []⟩] })

/-- R141, R142, R143, R144: `XS.WORD` answers `rotl(s1 * 5, 7) * 9` of the entry state and leaves the state of the closed form, the
rotations written out as shifts. -/
def Obligations.XsWordScramblesThenRotates : Prop :=
  ∀ s : State,
    (s.xs = none → exec .xsWord s = .next { s with responses := s.responses ++ [⟨.errNotInit, []⟩] }) ∧
    (∀ a b c d : U64, s.xs = some #v[a, b, c, d] → exec .xsWord s =
      .next { s with
        xs := some #v[a ^^^ b ^^^ d, a ^^^ b ^^^ c, a ^^^ c ^^^ (b <<< 17), ((b ^^^ d) <<< 45) ||| ((b ^^^ d) >>> 19)],
        responses := s.responses ++ [⟨.ok, le64 ((((b * 5#64) <<< 7) ||| ((b * 5#64) >>> 57)) * 9#64)⟩] })

/-- R145: `XS.INIT 0, 0, 0, 0` succeeds, and every `XS.WORD` after it answers 0 and leaves the state all zero. -/
def Obligations.TheAllZeroXsStateStaysZero : Prop :=
  ∀ (n : Nat) (s : State),
    execAll (.xsInit [0#64, 0#64, 0#64, 0#64] :: List.replicate n .xsWord) s =
      .next { s with xs := some #v[0#64, 0#64, 0#64, 0#64],
                     responses := s.responses ++ ⟨.ok, []⟩ :: List.replicate n ⟨.ok, List.replicate 8 0#8⟩ }

/-- R163: `XS.RDST` answers the word of its index, `ERR_RANGE` from 4 on, `ERR_NOT_INIT` before a load; the four words read, fed back through
`XS.INIT` in any state, restore the engine. -/
def Obligations.XsRdstReadsACheckpoint : Prop :=
  (∀ (i : U32) (s : State), s.xs = none →
    exec (.xsRdst i) s = .next { s with responses := s.responses ++ [⟨.errNotInit, []⟩] }) ∧
  (∀ (i : U32) (s : State) (v : Vector U64 4), s.xs = some v →
    (4 ≤ i.toNat → exec (.xsRdst i) s = .next { s with responses := s.responses ++ [⟨.errRange, []⟩] }) ∧
    (∀ _ : i.toNat < 4, exec (.xsRdst i) s = .next { s with responses := s.responses ++ [⟨.ok, le64 v[i.toNat]⟩] })) ∧
  (∀ (s u : State) (v : Vector U64 4), s.xs = some v → ∃ x0 x1 x2 x3 : U64,
    execAll [.xsRdst 0#32, .xsRdst 1#32, .xsRdst 2#32, .xsRdst 3#32] s =
      .next { s with responses := s.responses ++ [⟨.ok, le64 x0⟩, ⟨.ok, le64 x1⟩, ⟨.ok, le64 x2⟩, ⟨.ok, le64 x3⟩] } ∧
    exec (.xsInit [x0, x1, x2, x3]) u = .next { u with xs := s.xs, responses := u.responses ++ [⟨.ok, []⟩] })

/-! ### Inspection -/

/-- R160: `MT.RDSEED` answers the operand of the most recent `MT.SEED`, however many other commands came after; before the first, `ERR_NOT_INIT`. -/
def Obligations.MtRdseedAnswersTheLastSeed : Prop :=
  (∀ s : State, s.mt = none → exec .mtRdseed s = .next { s with responses := s.responses ++ [⟨.errNotInit, []⟩] }) ∧
  (∀ (s : State) (e : MtEngine), s.mt = some e →
    exec .mtRdseed s = .next { s with responses := s.responses ++ [⟨.ok, le32 e.seed⟩] }) ∧
  (∀ (a : U32) (is : List Instr) (s : State), (∀ b, .mtSeed b ∉ is) → ∃ t : State,
    execAll (.mtSeed a :: is) s = .next t ∧
    exec .mtRdseed t = .next { t with responses := t.responses ++ [⟨.ok, le32 a⟩] })

/-- R161: `MT.RDMTI` answers the cursor as a 32-bit word with the upper bits zero, 624 right after `MT.SEED`; before the first, `ERR_NOT_INIT`. -/
def Obligations.MtRdmtiAnswersTheCursor : Prop :=
  ∀ s : State,
    (s.mt = none → exec .mtRdmti s = .next { s with responses := s.responses ++ [⟨.errNotInit, []⟩] }) ∧
    (∀ e : MtEngine, s.mt = some e →
      exec .mtRdmti s = .next { s with responses := s.responses ++ [⟨.ok, le32 (BitVec.ofNat 32 e.mti.toNat)⟩] }) ∧
    (∀ a : U32, ∃ t : State, execAll [.mtSeed a, .mtRdmti] s = .next t ∧
      t.responses = s.responses ++ [⟨.ok, []⟩, ⟨.ok, [0x70#8, 0x02#8, 0x00#8, 0x00#8]⟩])

/-- R162: `MT.RDST k` answers the untempered state word of index `k`, `ERR_RANGE` from 624 on, `ERR_NOT_INIT` before the first `MT.SEED`; right after
`MT.SEED a`, word 0 is `a`. -/
def Obligations.MtRdstAnswersTheStateWord : Prop :=
  ∀ (k : U32) (s : State),
    (s.mt = none → exec (.mtRdst k) s = .next { s with responses := s.responses ++ [⟨.errNotInit, []⟩] }) ∧
    (s.mt ≠ none → 624 ≤ k.toNat → exec (.mtRdst k) s = .next { s with responses := s.responses ++ [⟨.errRange, []⟩] }) ∧
    (∀ e : MtEngine, s.mt = some e → k.toNat < 624 →
      exec (.mtRdst k) s = .next { s with responses := s.responses ++ [⟨.ok, le32 (e.mt.word k.toNat)⟩] }) ∧
    (∀ a : U32, ∃ t : State, execAll [.mtSeed a, .mtRdst 0#32] s = .next t ∧
      t.responses = s.responses ++ [⟨.ok, []⟩, ⟨.ok, le32 a⟩])

/-- R164, R27: `RDSTAT` never faults and answers `MT_VALID + 2 * XS_VALID` with bits 31:2 zero. -/
def Obligations.RdstatAnswersTheValidFlags : Prop :=
  ∀ s : State, exec .rdstat s =
    .next { s with responses := s.responses ++
      [⟨.ok, [BitVec.ofNat 8 ((if s.mt = none then 0 else 1) + 2 * (if s.xs = none then 0 else 1)), 0#8, 0#8, 0#8]⟩] }
end

