-- ==== Sys2Proof/Laws/Bytes.lean ====
section
/-! SUPPORT. Byte order and the decoder's formats: assembling the bytes of a word gives the word back, and each format
accepts exactly the operand bytes of its length. -/

namespace Sys2Proof

/-- Assembling the four bytes of `le32 v` gives `v` (R41, R65). -/
theorem word32_le32 (v : U32) :
    word32 (v.extractLsb' 0 8) (v.extractLsb' 8 8) (v.extractLsb' 16 8) (v.extractLsb' 24 8) = v := by
  apply BitVec.eq_of_toNat_eq
  have := v.isLt
  simp only [word32, BitVec.toNat_ofNat, BitVec.extractLsb'_toNat, Nat.shiftRight_eq_div_pow]
  omega

/-- Eight bits of a word, from bit `k` on, are the byte that stands at that place of its value. -/
theorem byte_of_place {w : Nat} (v : BitVec w) (k : Nat) (b : Byte) (h : v.toNat / 2 ^ k % 256 = b.toNat) :
    v.extractLsb' k 8 = b := by
  apply BitVec.eq_of_toNat_eq
  rw [BitVec.extractLsb'_toNat, Nat.shiftRight_eq_div_pow]
  exact h

/-- The bytes of an assembled word are the bytes it was assembled from (R41, R65). -/
theorem le32_word32 (b0 b1 b2 b3 : Byte) : le32 (word32 b0 b1 b2 b3) = [b0, b1, b2, b3] := by
  have h0 := b0.isLt; have h1 := b1.isLt; have h2 := b2.isLt; have h3 := b3.isLt
  have hv : (word32 b0 b1 b2 b3).toNat = b0.toNat + b1.toNat * 256 + b2.toNat * 65536 + b3.toNat * 16777216 := by
    simp only [word32, BitVec.toNat_ofNat, Nat.reducePow]
    omega
  rw [le32, byte_of_place _ 0 b0, byte_of_place _ 8 b1, byte_of_place _ 16 b2, byte_of_place _ 24 b3] <;>
    rw [hv] <;> simp only [Nat.reducePow] <;> omega

/-- Assembling the eight bytes of `le64 v` gives `v` (R41, R64). -/
theorem word64_le64 (v : U64) :
    word64 (v.extractLsb' 0 8) (v.extractLsb' 8 8) (v.extractLsb' 16 8) (v.extractLsb' 24 8)
      (v.extractLsb' 32 8) (v.extractLsb' 40 8) (v.extractLsb' 48 8) (v.extractLsb' 56 8) = v := by
  apply BitVec.eq_of_toNat_eq
  have := v.isLt
  simp only [word64, BitVec.toNat_ofNat, BitVec.extractLsb'_toNat, Nat.shiftRight_eq_div_pow]
  omega

/-- The bytes of an assembled 64-bit word are the bytes it was assembled from (R41, R64). -/
theorem le64_word64 (b0 b1 b2 b3 b4 b5 b6 b7 : Byte) :
    le64 (word64 b0 b1 b2 b3 b4 b5 b6 b7) = [b0, b1, b2, b3, b4, b5, b6, b7] := by
  have h0 := b0.isLt; have h1 := b1.isLt; have h2 := b2.isLt; have h3 := b3.isLt
  have h4 := b4.isLt; have h5 := b5.isLt; have h6 := b6.isLt; have h7 := b7.isLt
  have hv : (word64 b0 b1 b2 b3 b4 b5 b6 b7).toNat = b0.toNat + b1.toNat * 256 + b2.toNat * 65536
      + b3.toNat * 16777216 + b4.toNat * 4294967296 + b5.toNat * 1099511627776 + b6.toNat * 281474976710656
      + b7.toNat * 72057594037927936 := by
    simp only [word64, BitVec.toNat_ofNat, Nat.reducePow]
    omega
  rw [le64, byte_of_place _ 0 b0, byte_of_place _ 8 b1, byte_of_place _ 16 b2, byte_of_place _ 24 b3,
    byte_of_place _ 32 b4, byte_of_place _ 40 b5, byte_of_place _ 48 b6, byte_of_place _ 56 b7] <;>
    rw [hv] <;> simp only [Nat.reducePow] <;> omega

theorem le32_length (v : U32) : (le32 v).length = 4 := rfl

theorem le64_length (v : U64) : (le64 v).length = 8 := rfl

/-- Format `Z` accepts no operand byte (R61). -/
theorem decodeZ_eq_ok {i x : Instr} {ops : List Byte} : decodeZ i ops = .ok x ↔ ops = [] ∧ x = i := by
  cases ops <;> simp [decodeZ, eq_comm]

/-- Format `A` accepts exactly four operand bytes (R62). -/
theorem decodeA_eq_ok {i : U32 → Instr} {x : Instr} {ops : List Byte} :
    decodeA i ops = .ok x ↔ ∃ a : U32, ops = le32 a ∧ x = i a := by
  constructor
  · intro h
    unfold decodeA at h
    split at h
    · rename_i a0 a1 a2 a3
      exact ⟨word32 a0 a1 a2 a3, (le32_word32 a0 a1 a2 a3).symm, by simpa using h.symm⟩
    · simp at h
  · rintro ⟨a, rfl, rfl⟩
    simp [decodeA, le32, word32_le32]

/-- Format `AB` accepts exactly eight operand bytes (R63). -/
theorem decodeAB_eq_ok {i : U32 → U32 → Instr} {x : Instr} {ops : List Byte} :
    decodeAB i ops = .ok x ↔ ∃ a b : U32, ops = le32 a ++ le32 b ∧ x = i a b := by
  constructor
  · intro h
    unfold decodeAB at h
    split at h
    · rename_i a0 a1 a2 a3 b0 b1 b2 b3
      refine ⟨word32 a0 a1 a2 a3, word32 b0 b1 b2 b3, ?_, by simpa using h.symm⟩
      rw [le32_word32, le32_word32]; rfl
    · simp at h
  · rintro ⟨a, b, rfl, rfl⟩
    simp [decodeAB, le32, word32_le32]

/-- The operand bytes of a format `V` frame are the bytes of its words, in order (R64). -/
theorem words64_eq_some {ops : List Byte} {ws : List U64} : words64 ops = some ws ↔ ops = ws.flatMap le64 := by
  induction ws generalizing ops with
  | nil =>
    constructor
    · intro h
      unfold words64 at h
      split at h <;> simp_all
    · rintro rfl; rfl
  | cons w ws ih =>
    constructor
    · intro h
      unfold words64 at h
      split at h
      · simp at h
      · rename_i b0 b1 b2 b3 b4 b5 b6 b7 rest
        obtain ⟨vs, hvs, hcons⟩ := Option.map_eq_some_iff.mp h
        obtain ⟨rfl, rfl⟩ := List.cons.inj hcons
        rw [List.flatMap_cons, le64_word64, ← ih.mp hvs]; rfl
      · simp at h
    · rintro rfl
      have ih' : words64 (ws.flatMap le64) = some ws := ih.mpr rfl
      simp [List.flatMap_cons, le64, words64, word64_le64] at ih' ⊢
      exact ih'

/-- Format `V` accepts exactly the whole numbers of 64-bit words (R64). -/
theorem decodeV_eq_ok {i : List U64 → Instr} {x : Instr} {ops : List Byte} :
    decodeV i ops = .ok x ↔ ∃ ws : List U64, ops = ws.flatMap le64 ∧ x = i ws := by
  constructor
  · intro h
    unfold decodeV at h
    split at h
    · rename_i ws hws
      exact ⟨ws, words64_eq_some.mp hws, by simpa using h.symm⟩
    · simp at h
  · rintro ⟨ws, rfl, rfl⟩
    simp [decodeV, words64_eq_some.mpr rfl]

end Sys2Proof
end

