-- ==== Sys2Proof/Laws/Float.lean ====
section
/-! SUPPORT. What the one rounding function does (00_scope.md R13): the integer it takes is within half of the exact quotient, the exponent
it takes puts the significand in 53 bits, and its result is zero or a number of exactly 53 bits. -/

namespace Sys2Proof.Machine

/-- `nearestEven n d` is within one half of `n / d`, and even where it is exactly one half away. -/
theorem nearestEven_spec {n d : Nat} (hd : 0 < d) :
    2 * (nearestEven n d * d) ≤ 2 * n + d ∧ 2 * n ≤ 2 * (nearestEven n d * d) + d ∧
      ((2 * (nearestEven n d * d) = 2 * n + d ∨ 2 * n = 2 * (nearestEven n d * d) + d) →
        nearestEven n d % 2 = 0) := by
  have hn : n / d * d + n % d = n := by rw [Nat.mul_comm]; exact Nat.div_add_mod n d
  have hr : n % d < d := Nat.mod_lt n hd
  unfold nearestEven
  simp only
  split
  · refine ⟨by omega, by omega, fun h => by omega⟩
  · split
    · rw [Nat.add_mul, Nat.one_mul]
      refine ⟨by omega, by omega, fun h => by omega⟩
    · have hpar : n / d % 2 = 0 ∨ n / d % 2 = 1 := Nat.mod_two_eq_zero_or_one _
      rcases hpar with h0 | h1
      · rw [h0, Nat.add_zero]
        refine ⟨by omega, by omega, fun _ => by omega⟩
      · rw [h1, Nat.add_mul, Nat.one_mul]
        refine ⟨by omega, by omega, fun _ => by omega⟩

/-- The rational form of the comparison `d * 2^k ≤ n * 2^(-k)` on naturals. -/
theorem scaled_le_iff (n d : Nat) (hd : 0 < d) (k : Int) :
    d * 2 ^ k.toNat ≤ n * 2 ^ (-k).toNat ↔ (2 : ℚ) ^ k ≤ (n : ℚ) / d := by
  have hdq : (0 : ℚ) < d := by exact_mod_cast hd
  rw [le_div_iff₀ hdq]
  rcases Int.le_total 0 k with hk | hk
  · obtain ⟨j, rfl⟩ := Int.eq_ofNat_of_zero_le hk
    have h1 : ((j : Int)).toNat = j := Int.toNat_natCast j
    have h2 : (-(j : Int)).toNat = 0 := by omega
    rw [h1, h2, zpow_natCast, pow_zero, Nat.mul_one, mul_comm]
    exact_mod_cast Iff.rfl
  · obtain ⟨j, hj⟩ := Int.eq_ofNat_of_zero_le (Int.neg_nonneg_of_nonpos hk)
    obtain rfl : k = -(j : Int) := by omega
    have h1 : (-(-(j : Int))).toNat = j := by omega
    have h2 : (-(j : Int)).toNat = 0 := by omega
    have hp : (0 : ℚ) < 2 ^ j := by positivity
    rw [h1, h2, zpow_neg, zpow_natCast, pow_zero, Nat.mul_one, inv_mul_le_iff₀ hp, mul_comm (2 ^ j : ℚ)]
    exact_mod_cast Iff.rfl

/-- `floorLog2 n d` is the exponent of the leading bit of `n / d`. -/
theorem floorLog2_spec {n d : Nat} (hn : 0 < n) (hd : 0 < d) :
    (2 : ℚ) ^ floorLog2 n d ≤ (n : ℚ) / d ∧ (n : ℚ) / d < 2 ^ (floorLog2 n d + 1) := by
  have hnq : (0 : ℚ) < n := by exact_mod_cast hn
  have hdq : (0 : ℚ) < d := by exact_mod_cast hd
  have n1 : (2 : ℚ) ^ (n.log2 : Int) ≤ n := by
    rw [zpow_natCast]; exact_mod_cast Nat.log2_self_le hn.ne'
  have n2 : (n : ℚ) < 2 ^ ((n.log2 : Int) + 1) := by
    have h : n < 2 ^ (n.log2 + 1) := Nat.lt_log2_self
    calc (n : ℚ) < ((2 ^ (n.log2 + 1) : ℕ) : ℚ) := by exact_mod_cast h
      _ = _ := by rw [Nat.cast_pow, Nat.cast_ofNat, ← zpow_natCast]; norm_cast
  have d1 : (2 : ℚ) ^ (d.log2 : Int) ≤ d := by
    rw [zpow_natCast]; exact_mod_cast Nat.log2_self_le hd.ne'
  have d2 : (d : ℚ) < 2 ^ ((d.log2 : Int) + 1) := by
    have h : d < 2 ^ (d.log2 + 1) := Nat.lt_log2_self
    calc (d : ℚ) < ((2 ^ (d.log2 + 1) : ℕ) : ℚ) := by exact_mod_cast h
      _ = _ := by rw [Nat.cast_pow, Nat.cast_ofNat, ← zpow_natCast]; norm_cast
  have hlow : (2 : ℚ) ^ ((n.log2 : Int) - d.log2 - 1) ≤ n / d := by
    rw [le_div_iff₀ hdq]
    calc (2 : ℚ) ^ ((n.log2 : Int) - d.log2 - 1) * d
        ≤ 2 ^ ((n.log2 : Int) - d.log2 - 1) * 2 ^ ((d.log2 : Int) + 1) :=
          mul_le_mul_of_nonneg_left d2.le (by positivity)
      _ = 2 ^ (n.log2 : Int) := by rw [← zpow_add₀ (by norm_num)]; congr 1; ring
      _ ≤ n := n1
  have hhigh : (n : ℚ) / d < 2 ^ ((n.log2 : Int) - d.log2 + 1) := by
    rw [div_lt_iff₀ hdq]
    calc (n : ℚ) < 2 ^ ((n.log2 : Int) + 1) := n2
      _ = 2 ^ ((n.log2 : Int) - d.log2 + 1) * 2 ^ (d.log2 : Int) := by
          rw [← zpow_add₀ (by norm_num)]; congr 1; ring
      _ ≤ _ := mul_le_mul_of_nonneg_left d1 (by positivity)
  unfold floorLog2
  simp only
  split
  · rename_i h
    exact ⟨(scaled_le_iff n d hd _).mp h, hhigh⟩
  · rename_i h
    refine ⟨hlow, ?_⟩
    rw [sub_add_cancel]
    exact not_le.mp fun h' => h ((scaled_le_iff n d hd _).mpr h')

/-- The quotient scaled by `2^(-e)` on naturals, as a rational. -/
theorem scaled_quotient (n d : Nat) (hd : 0 < d) (e : Int) :
    ((n * 2 ^ (-e).toNat : ℕ) : ℚ) / ((d * 2 ^ e.toNat : ℕ) : ℚ) = (n : ℚ) / d * 2 ^ (-e) := by
  have hdq : (d : ℚ) ≠ 0 := by exact_mod_cast hd.ne'
  rcases Int.le_total 0 e with he | he
  · obtain ⟨j, rfl⟩ := Int.eq_ofNat_of_zero_le he
    have h1 : ((j : Int)).toNat = j := Int.toNat_natCast j
    have h2 : (-(j : Int)).toNat = 0 := by omega
    rw [h1, h2, zpow_neg, zpow_natCast]
    push_cast
    field_simp
  · obtain ⟨j, hj⟩ := Int.eq_ofNat_of_zero_le (Int.neg_nonneg_of_nonpos he)
    obtain rfl : e = -(j : Int) := by omega
    have h1 : (-(-(j : Int))).toNat = j := by omega
    have h2 : (-(j : Int)).toNat = 0 := by omega
    rw [h1, h2, neg_neg, zpow_natCast]
    push_cast
    field_simp

/-- Before rounding, the scaled quotient has exactly 53 bits before the point. -/
theorem scaled_quotient_range {n d : Nat} (hn : 0 < n) (hd : 0 < d) :
    2 ^ 52 * (d * 2 ^ (floorLog2 n d - 52).toNat) ≤ n * 2 ^ (-(floorLog2 n d - 52)).toNat ∧
      n * 2 ^ (-(floorLog2 n d - 52)).toNat < 2 ^ 53 * (d * 2 ^ (floorLog2 n d - 52).toNat) := by
  obtain ⟨h1, h2⟩ := floorLog2_spec hn hd
  have hq := scaled_quotient n d hd (floorLog2 n d - 52)
  have hpos : (0 : ℚ) < ((d * 2 ^ (floorLog2 n d - 52).toNat : ℕ) : ℚ) := by
    exact_mod_cast Nat.mul_pos hd (by positivity)
  have hs : (0 : ℚ) < 2 ^ (-(floorLog2 n d - 52)) := by positivity
  have e1 : (2 : ℚ) ^ floorLog2 n d * 2 ^ (-(floorLog2 n d - 52)) = 2 ^ 52 := by
    rw [← zpow_add₀ (by norm_num)]
    have : floorLog2 n d + -(floorLog2 n d - 52) = ((52 : ℕ) : Int) := by push_cast; ring
    rw [this, zpow_natCast]
  have e2 : (2 : ℚ) ^ (floorLog2 n d + 1) * 2 ^ (-(floorLog2 n d - 52)) = 2 ^ 53 := by
    rw [← zpow_add₀ (by norm_num)]
    have : floorLog2 n d + 1 + -(floorLog2 n d - 52) = ((53 : ℕ) : Int) := by push_cast; ring
    rw [this, zpow_natCast]
  constructor
  · have := mul_le_mul_of_nonneg_right h1 hs.le
    rw [e1, ← hq, le_div_iff₀ hpos] at this
    exact_mod_cast this
  · have := mul_lt_mul_of_pos_right h2 hs
    rw [e2, ← hq, div_lt_iff₀ hpos] at this
    exact_mod_cast this

/-- The rounded significand of a positive quotient is in `2^52 .. 2^53`. -/
theorem nearestEven_range {n d : Nat} (hd : 0 < d) {lo hi : Nat} (h1 : lo * d ≤ n) (h2 : n < hi * d) :
    lo ≤ nearestEven n d ∧ nearestEven n d ≤ hi := by
  have hlo : lo ≤ n / d := (Nat.le_div_iff_mul_le hd).mpr h1
  have hhi : n / d < hi := (Nat.div_lt_iff_lt_mul hd).mpr h2
  have hm : n / d % 2 < 2 := Nat.mod_lt _ (by decide)
  unfold nearestEven
  simp only
  split
  · omega
  · split <;> omega

/-- The result of a rounding is zero or has exactly 53 significant bits. -/
theorem roundQuotient_canonical {n d : Nat} (hd : 0 < d) :
    roundQuotient n d = ⟨0, 0⟩ ∨ (2 ^ 52 ≤ (roundQuotient n d).mant ∧ (roundQuotient n d).mant < 2 ^ 53) := by
  unfold roundQuotient
  split
  · exact .inl rfl
  · rename_i hn
    have hn' : 0 < n := Nat.pos_of_ne_zero hn
    right
    obtain ⟨h1, h2⟩ := scaled_quotient_range hn' hd
    have hd' : 0 < d * 2 ^ (floorLog2 n d - 52).toNat := Nat.mul_pos hd (by positivity)
    obtain ⟨l, u⟩ := nearestEven_range hd' h1 h2
    simp only
    split
    · norm_num
    · exact ⟨l, lt_of_le_of_ne u ‹_›⟩

end Sys2Proof.Machine
end

