-- ==== Sys2Proof/Laws/State.lean ====
section
/-! SUPPORT. One lemma per field per update of State, so that no later proof unfolds a record update. -/

namespace Sys2Proof.Machine

@[simp] theorem State.respond_mt (s : State) (st : Status) (p : List Byte) : (s.respond st p).mt = s.mt := rfl
@[simp] theorem State.respond_xs (s : State) (st : Status) (p : List Byte) : (s.respond st p).xs = s.xs := rfl
@[simp] theorem State.respond_pending (s : State) (st : Status) (p : List Byte) :
    (s.respond st p).pending = s.pending := rfl
@[simp] theorem State.respond_responses (s : State) (st : Status) (p : List Byte) :
    (s.respond st p).responses = s.responses ++ [⟨st, p⟩] := rfl

@[simp] theorem State.applyReset_mt (s : State) : s.applyReset.mt = none := rfl
@[simp] theorem State.applyReset_xs (s : State) : s.applyReset.xs = none := rfl
@[simp] theorem State.applyReset_pending (s : State) : s.applyReset.pending = s.pending := rfl
@[simp] theorem State.applyReset_responses (s : State) : s.applyReset.responses = s.responses := rfl

@[simp] theorem State.present_mt (s : State) (f : Frame) : (s.present f).mt = s.mt := rfl
@[simp] theorem State.present_xs (s : State) (f : Frame) : (s.present f).xs = s.xs := rfl
@[simp] theorem State.present_pending (s : State) (f : Frame) :
    (s.present f).pending = .command f :: s.pending := rfl
@[simp] theorem State.present_responses (s : State) (f : Frame) : (s.present f).responses = s.responses := rfl

@[simp] theorem State.reset_mt : State.reset.mt = none := rfl
@[simp] theorem State.reset_xs : State.reset.xs = none := rfl
@[simp] theorem State.reset_pending : State.reset.pending = [] := rfl
@[simp] theorem State.reset_responses : State.reset.responses = [] := rfl

@[simp] theorem mtTwist_mti (e : MtEngine) : (mtTwist e).mti = 0#10 := rfl
@[simp] theorem mtTwist_seed (e : MtEngine) : (mtTwist e).seed = e.seed := rfl
@[simp] theorem mtTwist_mt (e : MtEngine) : (mtTwist e).mt = twistArray e.mt := rfl

end Sys2Proof.Machine
end

