-- ==== Sys2Proof/Laws/Ops.lean ====
section
/-! SUPPORT. For each shared operation, once, everything it can do: what it answers in each case, and what follows when it answers a next state. -/

namespace Sys2Proof.Machine

/-! ### Answers -/

theorem State.raise_eq (s : State) (e : Status) : s.raise e = .next (s.respond e []) := rfl

theorem State.answer_eq (s : State) (p : List Byte) : s.answer p = .next (s.respond .ok p) := rfl

theorem State.withMt_none {s : State} (h : s.mt = none) (k : MtEngine → Answer) :
    s.withMt k = .next (s.respond .errNotInit []) := by
  simp [State.withMt, h, State.raise]

theorem State.withMt_some {s : State} {e : MtEngine} (h : s.mt = some e) (k : MtEngine → Answer) :
    s.withMt k = k e := by
  simp [State.withMt, h]

/-- If the MT test answers a next state, either the generator is absent and the answer is `ERR_NOT_INIT`, or the
rest of the command answered it. -/
theorem State.withMt_next {s t : State} {k : MtEngine → Answer} (h : s.withMt k = .next t) :
    (s.mt = none ∧ t = s.respond .errNotInit []) ∨ ∃ e, s.mt = some e ∧ k e = .next t := by
  cases hm : s.mt with
  | none =>
    rw [State.withMt_none hm] at h
    exact .inl ⟨rfl, (Host.Outcome.next.inj h).symm⟩
  | some e =>
    rw [State.withMt_some hm] at h
    exact .inr ⟨e, rfl, h⟩

theorem State.withXs_none {s : State} (h : s.xs = none) (k : Vector U64 4 → Answer) :
    s.withXs k = .next (s.respond .errNotInit []) := by
  simp [State.withXs, h, State.raise]

theorem State.withXs_some {s : State} {v : Vector U64 4} (h : s.xs = some v) (k : Vector U64 4 → Answer) :
    s.withXs k = k v := by
  simp [State.withXs, h]

/-- If the XS test answers a next state, either the generator is absent and the answer is `ERR_NOT_INIT`, or the
rest of the command answered it. -/
theorem State.withXs_next {s t : State} {k : Vector U64 4 → Answer} (h : s.withXs k = .next t) :
    (s.xs = none ∧ t = s.respond .errNotInit []) ∨ ∃ v, s.xs = some v ∧ k v = .next t := by
  cases hx : s.xs with
  | none =>
    rw [State.withXs_none hx] at h
    exact .inl ⟨rfl, (Host.Outcome.next.inj h).symm⟩
  | some v =>
    rw [State.withXs_some hx] at h
    exact .inr ⟨v, rfl, h⟩

theorem State.rangeCheck_fails {s : State} {c : Prop} [Decidable c] (h : c) (k : Answer) :
    s.rangeCheck c k = .next (s.respond .errRange []) := by
  simp [State.rangeCheck, h, State.raise]

theorem State.rangeCheck_passes {s : State} {c : Prop} [Decidable c] (h : ¬c) (k : Answer) :
    s.rangeCheck c k = k := by
  simp [State.rangeCheck, h]

/-- If a range test answers a next state, either it failed and the answer is `ERR_RANGE`, or the rest answered it. -/
theorem State.rangeCheck_next {s t : State} {c : Prop} [Decidable c] {k : Answer} (h : s.rangeCheck c k = .next t) :
    (c ∧ t = s.respond .errRange []) ∨ (¬c ∧ k = .next t) := by
  by_cases hc : c
  · rw [State.rangeCheck_fails hc] at h
    exact .inl ⟨hc, (Host.Outcome.next.inj h).symm⟩
  · rw [State.rangeCheck_passes hc] at h
    exact .inr ⟨hc, h⟩

theorem State.drawAnswer_eq (s : State) (e : MtEngine) (payload : U32 → List Byte) :
    s.drawAnswer e payload =
      .next ({ s with mt := some (mtDraw e).2 }.respond .ok (payload (mtDraw e).1)) := rfl

theorem State.takeEvent_nil {s : State} (h : s.pending = []) : s.takeEvent = none := by
  simp [State.takeEvent, h]

theorem State.takeEvent_cons {s : State} {ev : HostEvent} {rest : List HostEvent} (h : s.pending = ev :: rest) :
    s.takeEvent = some (ev, { s with pending := rest }) := by
  simp [State.takeEvent, h]

/-! ### The MT engine -/

theorem mtRefill_of_lt {e : MtEngine} (h : e.mti.toNat < 624) : mtRefill e = e := by
  simp [mtRefill, Nat.not_le.mpr h]

theorem mtRefill_of_ge {e : MtEngine} (h : 624 ≤ e.mti.toNat) : mtRefill e = mtTwist e := by
  simp [mtRefill, h]

/-- A draw while the array lasts (R95). -/
theorem mtDraw_of_lt {e : MtEngine} (h : e.mti.toNat < 624) :
    mtDraw e = (temper (e.mt.word e.mti.toNat), { e with mti := e.mti + 1#10 }) := by
  simp [mtDraw, mtRefill_of_lt h]

/-- A draw that twists first (R95). -/
theorem mtDraw_of_ge {e : MtEngine} (h : 624 ≤ e.mti.toNat) :
    mtDraw e = (temper ((twistArray e.mt).word 0), { mt := twistArray e.mt, mti := 1#10, seed := e.seed }) := by
  simp [mtDraw, mtRefill_of_ge h, mtTwist]

@[simp] theorem mtDraw_seed (e : MtEngine) : (mtDraw e).2.seed = e.seed := by
  by_cases h : e.mti.toNat < 624
  · simp [mtDraw_of_lt h]
  · simp [mtDraw_of_ge (Nat.le_of_not_lt h)]

theorem mtDraws_zero (e : MtEngine) : mtDraws 0 e = ([], e) := rfl

theorem mtDraws_succ (n : Nat) (e : MtEngine) :
    mtDraws (n + 1) e = ((mtDraw e).1 :: (mtDraws n (mtDraw e).2).1, (mtDraws n (mtDraw e).2).2) := rfl

theorem mtDraws_length (n : Nat) (e : MtEngine) : (mtDraws n e).1.length = n := by
  induction n generalizing e with
  | zero => rfl
  | succ n ih => simp [mtDraws_succ, ih]

/-- A word of a run of twist steps, from the three words it reads (R92). -/
theorem twistRun_getElem? (cs ws : List U32) (j : Nat) :
    (twistRun cs ws)[j]? =
      if j < cs.length ∧ j + 1 < ws.length then
        some (twistWord (ws.getD j 0#32) (ws.getD (j + 1) 0#32) (cs.getD j 0#32))
      else none := by
  induction cs generalizing ws j with
  | nil => simp [twistRun]
  | cons c cs ih =>
    match ws with
    | [] => simp [twistRun]
    | [_] => simp [twistRun]
    | a :: b :: rest =>
      cases j with
      | zero => simp [twistRun]
      | succ j => simp [twistRun, ih]

/-- Reading a word below 624 is reading the list (R14). -/
theorem MtArray.word_eq (a : MtArray) {i : Nat} (h : i < 624) :
    a.word i = a.words[i]'(by rw [a.size]; exact h) := by
  simp [MtArray.word, List.getD, a.size, h]

/-- Two arrays with the same words are the same array. -/
theorem MtArray.ext_words {a b : MtArray} (h : a.words = b.words) : a = b := by
  cases a; cases b; simpa using h

end Sys2Proof.Machine
end

