-- ==== Sys2Proof/Laws/PerInstr.lean ====
section
/-! SUPPORT. Statements made per instruction. `EncodedLegal`: the frame the encoder writes for a command is legal by R69, which
`frameLegal` states independently of the decoder. -/

namespace Sys2Proof.Laws.EncodedLegal

/-- The frame of `i` is none of R69 (a) to (f). -/
def Statement (i : Instr) : Prop := frameLegal (encode i) = true

/-- The operand bytes of `n` words are `8 n` bytes (R64). -/
theorem flatMap_le64_length (words : List U64) : (words.flatMap le64).length = 8 * words.length := by
  induction words with
  | nil => rfl
  | cons w ws ih => rw [List.flatMap_cons, List.length_append, ih, le64_length, List.length_cons]; omega

theorem mtSeed (seed : U32) : Statement (.mtSeed seed) := rfl

theorem mtWord : Statement (.mtWord) := rfl

theorem mtWordb (max : U32) : Statement (.mtWordb max) := rfl

theorem mtWordr (min max : U32) : Statement (.mtWordr min max) := rfl

theorem mtInt : Statement (.mtInt) := rfl

theorem mtIntb (max : U32) : Statement (.mtIntb max) := rfl

theorem mtIntr (min max : U32) : Statement (.mtIntr min max) := rfl

theorem mtBytes (len : U32) : Statement (.mtBytes len) := rfl

theorem mtF64 : Statement (.mtF64) := rfl

theorem mtU64c : Statement (.mtU64c) := rfl

theorem mtRdseed : Statement (.mtRdseed) := rfl

theorem mtRdmti : Statement (.mtRdmti) := rfl

theorem mtRdst (k : U32) : Statement (.mtRdst k) := rfl

theorem xsInit (words : List U64) : Statement (.xsInit words) := by
  have h : ((0x20#8 :: words.flatMap le64).length - 1) % 8 = 0 := by
    rw [List.length_cons, flatMap_le64_length]; omega
  simpa [Statement, encode, frameLegal, formatOf, Format.fits] using h

theorem xsWord : Statement (.xsWord) := rfl

theorem xsRdst (i : U32) : Statement (.xsRdst i) := rfl

theorem rdstat : Statement (.rdstat) := rfl

end Sys2Proof.Laws.EncodedLegal
end

