-- ==== Sys2Proof/Tests/Slice0.lean ====
section
/-! SUPPORT. The model's own tests. Every expected value comes from spec/95_test_vectors.md (the vector's name stands at each test) or is written
out by hand from the rule named there; the witnesses meet the hypotheses of the statements of Certificates/Slice0/Obligations.lean. -/

namespace Sys2Proof.Tests

open Sys2Proof.Machine

/-- An instance whose next draw reads the state word `w`: cursor 3, seed register 7. -/
def drawing (w : U32) : State :=
  { State.reset with mt := some { mt := ⟨List.replicate 624 w, List.length_replicate⟩, mti := 3#10, seed := 7#32 } }

/-- An instance right after `MT.SEED a`. -/
def seeded (a : U32) : State :=
  { State.reset with mt := some { mt := mtFill a, mti := 624#10, seed := a } }

/-- An instance whose XS engine holds these words. -/
def loaded (a b c d : U64) : State := { State.reset with xs := some #v[a, b, c, d] }

/-- An instance to which the host is about to present these frames. -/
def presented (s : State) (fs : List Frame) : State := { s with pending := fs.map .command }

/-- The last response frame of an answer. -/
def answerFrame (o : Answer) : Option Frame :=
  match o with
  | .next t => t.responses.getLast?.map responseFrame
  | .fault _ => none
  | .refused _ => none

/-- The MT engine an answer leaves. -/
def answerMt (o : Answer) : Option MtEngine :=
  match o with
  | .next t => t.mt
  | .fault _ => none
  | .refused _ => none

/-- The XS engine an answer leaves. -/
def answerXs (o : Answer) : Option (Vector U64 4) :=
  match o with
  | .next t => t.xs
  | .fault _ => none
  | .refused _ => none

/-- What the decoder says of a frame: the instruction, or the reason it is illegal. -/
def verdict (f : Frame) : Option Instr × Option Illegal :=
  match decode f with
  | .ok i => (some i, none)
  | .error x => (none, some x)

/-! ### Legal frames: one ill-formed term for each check of R69, and a legal neighbour -/

theorem test_illegal_empty : frameLegal [] = false := by decide
theorem test_illegal_opcode : frameLegal [0x00#8] = false ∧ frameLegal [0xFF#8] = false ∧ frameLegal [0x1D#8] = false
    ∧ frameLegal [0x0F#8] = false ∧ frameLegal [0x23#8] = false ∧ frameLegal [0x2F#8] = false ∧ frameLegal [0x31#8] = false := by decide
theorem test_illegal_z : frameLegal [0x11#8, 0#8] = false ∧ frameLegal [0x11#8] = true := by decide
theorem test_illegal_a : frameLegal [0x10#8, 1#8, 0#8, 0#8] = false ∧ frameLegal [0x10#8, 1#8, 0#8, 0#8, 0#8] = true := by decide
theorem test_illegal_ab : frameLegal [0x13#8, 0x0A#8, 0#8, 0#8, 0#8] = false
    ∧ frameLegal [0x13#8, 0#8, 0#8, 0#8, 0#8, 0#8, 0#8, 0#8, 0#8] = true := by decide
theorem test_illegal_v : frameLegal (0x20#8 :: List.replicate 31 0#8) = false ∧ frameLegal (0x20#8 :: List.replicate 24 0#8) = true
    ∧ frameLegal [0x20#8] = true := by decide

/-! ### Decoding: words written out from R61 to R65 and R68 (V-E1 to V-E24) -/

/-- V-E2. -/
theorem test_decode_mtSeed : verdict [0x10#8, 0x05#8, 0x11#8, 0x00#8, 0x00#8]
    = (some (.mtSeed 4357#32), none) := by decide
/-- V-E7. -/
theorem test_decode_mtWord : verdict [0x11#8]
    = (some (.mtWord), none) := by decide
/-- P2. -/
theorem test_decode_mtWordb : verdict [0x12#8, 0x64#8, 0x00#8, 0x00#8, 0x00#8]
    = (some (.mtWordb 100#32), none) := by decide
/-- V-E3. -/
theorem test_decode_mtWordr : verdict [0x13#8, 0x0A#8, 0x00#8, 0x00#8, 0x00#8, 0x14#8, 0x00#8, 0x00#8, 0x00#8]
    = (some (.mtWordr 10#32 20#32), none) := by decide
/-- P2. -/
theorem test_decode_mtInt : verdict [0x14#8]
    = (some (.mtInt), none) := by decide
/-- P4. -/
theorem test_decode_mtIntb : verdict [0x15#8, 0xFB#8, 0xFF#8, 0xFF#8, 0xFF#8]
    = (some (.mtIntb 0xFFFFFFFB#32), none) := by decide
/-- V-E4. -/
theorem test_decode_mtIntr : verdict [0x16#8, 0xF6#8, 0xFF#8, 0xFF#8, 0xFF#8, 0x0A#8, 0x00#8, 0x00#8, 0x00#8]
    = (some (.mtIntr 0xFFFFFFF6#32 10#32), none) := by decide
/-- V-E5. -/
theorem test_decode_mtBytes : verdict [0x17#8, 0x6F#8, 0x02#8, 0x00#8, 0x00#8]
    = (some (.mtBytes 623#32), none) := by decide
/-- P2. -/
theorem test_decode_mtF64 : verdict [0x18#8]
    = (some (.mtF64), none) := by decide
/-- P2. -/
theorem test_decode_mtU64c : verdict [0x19#8]
    = (some (.mtU64c), none) := by decide
/-- P1. -/
theorem test_decode_mtRdseed : verdict [0x1A#8]
    = (some (.mtRdseed), none) := by decide
/-- P1. -/
theorem test_decode_mtRdmti : verdict [0x1B#8]
    = (some (.mtRdmti), none) := by decide
/-- V-E6. -/
theorem test_decode_mtRdst : verdict [0x1C#8, 0x70#8, 0x02#8, 0x00#8, 0x00#8]
    = (some (.mtRdst 624#32), none) := by decide
/-- P6. -/
theorem test_decode_xsInit : verdict [0x20#8, 0xEF#8, 0xCD#8, 0xAB#8, 0x89#8, 0x67#8, 0x45#8, 0x23#8, 0x01#8, 0x10#8, 0x32#8, 0x54#8, 0x76#8, 0x98#8, 0xBA#8, 0xDC#8, 0xFE#8, 0x78#8, 0x69#8, 0x5A#8, 0x4B#8, 0x3C#8, 0x2D#8, 0x1E#8, 0x0F#8, 0xF0#8, 0xE1#8, 0xD2#8, 0xC3#8, 0xB4#8, 0xA5#8, 0x96#8, 0x87#8]
    = (some (.xsInit [0x0123456789ABCDEF#64, 0xFEDCBA9876543210#64, 0x0F1E2D3C4B5A6978#64, 0x8796A5B4C3D2E1F0#64]), none) := by decide
/-- V-E14. -/
theorem test_decode_xsInit_none : verdict [0x20#8]
    = (some (.xsInit []), none) := by decide
/-- P3. -/
theorem test_decode_xsWord : verdict [0x21#8]
    = (some (.xsWord), none) := by decide
/-- P3. -/
theorem test_decode_xsRdst : verdict [0x22#8, 0x03#8, 0x00#8, 0x00#8, 0x00#8]
    = (some (.xsRdst 3#32), none) := by decide
/-- V-E23. -/
theorem test_decode_rdstat : verdict [0x30#8]
    = (some (.rdstat), none) := by decide
/-- V-E8 to V-E11, V-E15, V-E16, V-E24: what is refused, and why. -/
theorem test_decode_illegal :
    verdict [0x11#8, 0x00#8] = (none, some (.badLength .z 2)) ∧
    verdict [0x10#8, 0x01#8, 0x00#8, 0x00#8] = (none, some (.badLength .a 4)) ∧
    verdict [0x13#8, 0x0A#8, 0x00#8, 0x00#8, 0x00#8] = (none, some (.badLength .ab 5)) ∧
    verdict [] = (none, some .emptyFrame) ∧
    verdict (0x20#8 :: List.replicate 31 0x00#8) = (none, some (.badLength .v 32)) ∧
    verdict [0x00#8] = (none, some (.unassignedOpcode 0x00#8)) ∧
    verdict [0x30#8, 0x00#8, 0x00#8, 0x00#8, 0x00#8] = (none, some (.badLength .z 5)) := by decide
/-- R72's example of a frame, encoded. -/
theorem test_encode_mtWordr : encode (.mtWordr 10#32 20#32)
    = [0x13#8, 0x0A#8, 0x00#8, 0x00#8, 0x00#8, 0x14#8, 0x00#8, 0x00#8, 0x00#8] := by decide
/-- Of the 256 one-byte frames exactly nine decode (95_test_vectors.md 2.7). -/
theorem test_one_byte_frames :
    ((List.range 256).filter fun b => (decodeTableWord 8 b).isSome && (verdict [BitVec.ofNat 8 b]).1.isSome)
      = [0x11, 0x14, 0x18, 0x19, 0x1A, 0x1B, 0x20, 0x21, 0x30] := by decide +kernel
/-- The table's numbering: a row's opcode byte, operand bytes zero. -/
theorem test_table_word : decodeTableWord 8 0x13 = some (.mtWordr 0#32 0#32) ∧
    decodeTableWord 40 0x0000000110 = some (.mtSeed 1#32) ∧
    decodeTableWord 8 0x20 = some (.xsInit [0#64, 0#64, 0#64, 0#64]) ∧ decodeTableWord 8 0x00 = none := by decide

/-! ### The named functions -/

/-- V-T5, V-T6, V-T9, V-T10. -/
theorem test_temper : temper 0x12345678#32 = 0x2B7E4A2D#32 ∧ temper 0xFF709C84#32 = 0xE2450886#32 ∧
    temper 0xDEADBEEF#32 = 0xE016575D#32 ∧ temper 0x12DD9BB3#32 = 0xFFFFFFFF#32 := by decide
/-- V-W1, V-W4, V-W5, V-W8: single steps of the twist, low bit set and clear. -/
theorem test_twistWord : twistWord 0x00000001#32 0x00010DCD#32 0x6678AABD#32 = 0xFF709C84#32 ∧
    twistWord 0x1CBF55A9#32 0x123A2D55#32 0xC55C77C5#32 = 0x5549D1B0#32 ∧
    twistWord 0x123A2D55#32 0xBA389E11#32 0xFF709C84#32 = 0x7B646353#32 ∧
    twistWord 0xC55C77C5#32 0xFF709C84#32 0x7234F743#32 = 0x0D8CB901#32 := by decide
/-- V-W5, V-W6, V-W7, V-W8 against V-W9: the first twist after `MT.SEED 1` reads rewritten words from step 227 on. -/
theorem test_twist_in_place : [226, 227, 228, 396, 622, 623].map (twistArray (mtFill 1#32)).word
    = [0x5549D1B0#32, 0x7B646353#32, 0x9A925103#32, 0x7234F743#32, 0x675FE14E#32, 0x0D8CB901#32] := by decide +kernel
/-- V-A6, V-A16: `rescale` and its two roundings. -/
theorem test_rescale : f64Bits (unitFloat 0xE2450886#32) = 0x3FEC48A110DC48A1#64 ∧ rescale 0xE2450886#32 100 = 88 ∧
    f64Bits (fmul (unitFloat 0x2AAAAAAB#32) (cvt 6)) = 0x3FF0000000300000#64 := by decide +kernel
/-- V-A20, V-A21: the order of the operations and the roundings matter. -/
theorem test_rescale_order : rescale 0x9B9B9B9B#32 51 = 30 ∧ rescale 0x84167BE9#32 932001677 = 480883114 := by decide +kernel
/-- V-A71, V-A72, V-A75, V-A77. -/
theorem test_byteOf : byteOf 0x01010100#32 = 0#8 ∧ byteOf 0x01010101#32 = 1#8 ∧ byteOf 0xFEFEFEFF#32 = 254#8 ∧
    byteOf 0xFFFFFFFF#32 = 255#8 := by decide

/-! ### One step of each command -/

/-- V-F1: the fill of seed 1. -/
theorem test_mtSeed : (answerMt (exec (.mtSeed 1#32) State.reset)).map (fun e => (e.mt.word 0, e.mt.word 1, e.mt.word 623, e.mti, e.seed))
    = some (0x00000001#32, 0x00010DCD#32, 0xC55C77C5#32, 624#10, 1#32) := by decide +kernel
/-- V-F5: re-seeding a used engine with the degenerate seed. -/
theorem test_mtSeed_again : (answerMt (exec (.mtSeed 0x80000000#32) (drawing 5#32))).map (fun e => (e.mt.word 622, e.mti, e.seed))
    = some (0x80000000#32, 624#10, 0x80000000#32) := by decide +kernel
/-- V-M1, P1: the first draw after `MT.SEED 1` twists first. -/
theorem test_mtWord_twists : answerFrame (exec .mtWord (seeded 1#32)) = some [0x00#8, 0x86#8, 0x08#8, 0x45#8, 0xE2#8] := by decide +kernel
/-- V-G7: no MT engine. -/
theorem test_mtWord_not_init : answerFrame (exec .mtWord (loaded 1#64 2#64 3#64 4#64)) = some [0x02#8] := by decide +kernel
/-- V-A2 (the draw of the state word of V-T10): the closed upper end. -/
theorem test_mtWordb : answerFrame (exec (.mtWordb 100#32) (drawing 0x12DD9BB3#32)) = some [0x00#8, 0x64#8, 0x00#8, 0x00#8, 0x00#8] := by decide +kernel
/-- V-G1, V-G8: `ERR_NOT_INIT` before `ERR_RANGE`. -/
theorem test_mtWordb_faults : answerFrame (exec (.mtWordb 0#32) State.reset) = some [0x02#8] ∧
    answerFrame (exec (.mtWordb 0#32) (seeded 1#32)) = some [0x04#8] := by decide +kernel
/-- V-A37. -/
theorem test_mtWordr : answerFrame (exec (.mtWordr 0x80000000#32 0xFFFFFFFF#32) (drawing 0xFF709C84#32))
    = some [0x00#8, 0x42#8, 0x84#8, 0x22#8, 0xF1#8] := by decide +kernel
/-- P4: `max < min` and `max = min`. -/
theorem test_mtWordr_range : answerFrame (exec (.mtWordr 20#32 10#32) (drawing 0#32)) = some [0x04#8] ∧
    answerFrame (exec (.mtWordr 7#32 7#32) (drawing 0#32)) = some [0x04#8] := by decide +kernel
/-- V-A46. -/
theorem test_mtInt : answerFrame (exec .mtInt (drawing 0xFF709C84#32)) = some [0x00#8, 0x43#8, 0x84#8, 0x22#8, 0x71#8] := by decide +kernel
/-- V-A45. -/
theorem test_mtInt_top : answerFrame (exec .mtInt (drawing 0x12DD9BB3#32)) = some [0x00#8, 0xFF#8, 0xFF#8, 0xFF#8, 0x7F#8] := by decide +kernel
/-- V-G11: the largest signed bound. -/
theorem test_mtIntb : answerFrame (exec (.mtIntb 0x7FFFFFFF#32) (drawing 0xFF709C84#32))
    = some [0x00#8, 0x42#8, 0x84#8, 0x22#8, 0x71#8] := by decide +kernel
/-- V-G9, V-G12: negative bounds. -/
theorem test_mtIntb_range : answerFrame (exec (.mtIntb 0xFFFFFFFF#32) (seeded 1#32)) = some [0x04#8] ∧
    answerFrame (exec (.mtIntb 0x80000000#32) (seeded 1#32)) = some [0x04#8] := by decide +kernel
/-- V-A56: a negative result at the widest range. -/
theorem test_mtIntr : answerFrame (exec (.mtIntr 0x80000000#32 0xFFFFFFFF#32) (drawing 0xFF709C84#32))
    = some [0x00#8, 0x42#8, 0x84#8, 0x22#8, 0xF1#8] := by decide +kernel
/-- P4: ranges `2^32 - 1` and `2^31` do not fit. -/
theorem test_mtIntr_range : answerFrame (exec (.mtIntr 0x80000000#32 0x7FFFFFFF#32) (drawing 0#32)) = some [0x04#8] ∧
    answerFrame (exec (.mtIntr 0xFFFFFFFF#32 0x7FFFFFFF#32) (drawing 0#32)) = some [0x04#8] := by decide +kernel
/-- V-A78: two draws of one word, and a cursor two further on. -/
theorem test_mtBytes : answerFrame (exec (.mtBytes 2#32) (drawing 0xFF709C84#32)) = some [0x00#8, 0xE1#8, 0xE1#8] ∧
    (answerMt (exec (.mtBytes 2#32) (drawing 0xFF709C84#32))).map (fun e => e.mti) = some 5#10 := by decide +kernel
/-- P2: `MT.BYTES 0` makes no draw. -/
theorem test_mtBytes_zero : answerFrame (exec (.mtBytes 0#32) (drawing 9#32)) = some [0x00#8] ∧
    (answerMt (exec (.mtBytes 0#32) (drawing 9#32))).map (fun e => e.mti) = some 3#10 := by decide +kernel
/-- V-A66. -/
theorem test_mtF64 : answerFrame (exec .mtF64 (drawing 0xFF709C84#32))
    = some [0x00#8, 0xA1#8, 0x48#8, 0xDC#8, 0x10#8, 0xA1#8, 0x48#8, 0xEC#8, 0x3F#8] := by decide +kernel
/-- V-A65: exactly 1.0. -/
theorem test_mtF64_one : answerFrame (exec .mtF64 (drawing 0x12DD9BB3#32))
    = some [0x00#8, 0x00#8, 0x00#8, 0x00#8, 0x00#8, 0x00#8, 0x00#8, 0xF0#8, 0x3F#8] := by decide +kernel
/-- V-A65: exactly `10^12`. -/
theorem test_mtU64c : answerFrame (exec .mtU64c (drawing 0x12DD9BB3#32))
    = some [0x00#8, 0x00#8, 0x10#8, 0xA5#8, 0xD4#8, 0xE8#8, 0x00#8, 0x00#8, 0x00#8] := by decide +kernel
/-- V-A61 (the draw of the state word of V-T10): 232. -/
theorem test_mtU64c_low : answerFrame (exec .mtU64c (drawing 0x102244C9#32))
    = some [0x00#8, 0xE8#8, 0x00#8, 0x00#8, 0x00#8, 0x00#8, 0x00#8, 0x00#8, 0x00#8] := by decide +kernel
/-- R160. -/
theorem test_mtRdseed : answerFrame (exec .mtRdseed (drawing 1#32)) = some [0x00#8, 0x07#8, 0x00#8, 0x00#8, 0x00#8] := by decide +kernel
/-- P1. -/
theorem test_mtRdmti : answerFrame (exec .mtRdmti (seeded 1#32)) = some [0x00#8, 0x70#8, 0x02#8, 0x00#8, 0x00#8] := by decide +kernel
/-- P1: still the plain fill. -/
theorem test_mtRdst : answerFrame (exec (.mtRdst 1#32) (seeded 1#32)) = some [0x00#8, 0xCD#8, 0x0D#8, 0x01#8, 0x00#8] := by decide +kernel
/-- P4, V-G2. -/
theorem test_mtRdst_faults : answerFrame (exec (.mtRdst 624#32) (seeded 1#32)) = some [0x04#8] ∧
    answerFrame (exec (.mtRdst 624#32) State.reset) = some [0x02#8] := by decide +kernel
/-- P3, T6: four words load. -/
theorem test_xsInit : answerXs (exec (.xsInit [1#64, 2#64, 3#64, 4#64]) State.reset) = some #v[1#64, 2#64, 3#64, 4#64] := by decide
/-- P6: five words are `ERR_INVALID_STATE`, and the old state stays. -/
theorem test_xsInit_count : answerFrame (exec (.xsInit [9#64, 9#64, 9#64, 9#64, 9#64]) (loaded 1#64 2#64 3#64 4#64)) = some [0x03#8] ∧
    answerXs (exec (.xsInit [9#64, 9#64, 9#64, 9#64, 9#64]) (loaded 1#64 2#64 3#64 4#64)) = some #v[1#64, 2#64, 3#64, 4#64] := by decide
/-- V-X1, first row. -/
theorem test_xsWord : answerFrame (exec .xsWord (loaded 1#64 2#64 3#64 4#64))
      = some [0x00#8, 0x00#8, 0x2D#8, 0x00#8, 0x00#8, 0x00#8, 0x00#8, 0x00#8, 0x00#8] ∧
    answerXs (exec .xsWord (loaded 1#64 2#64 3#64 4#64)) = some #v[7#64, 0#64, 0x40002#64, 0x0000C00000000000#64] := by decide
/-- V-X4, first row. -/
theorem test_xsWord_wide :
    answerXs (exec .xsWord (loaded 0x0123456789ABCDEF#64 0xFEDCBA9876543210#64 0x0F1E2D3C4B5A6978#64 0x8796A5B4C3D2E1F0#64))
      = some #v[0x78695A4B3C2D1E0F#64, 0xF0E1D2C3B4A59687#64, 0x7B0D84F3A6D1A497#64, 0xDA7C0F2943E596B0#64] := by decide
/-- P3 with the state of V-X1. -/
theorem test_xsRdst : answerFrame (exec (.xsRdst 1#32) (loaded 1#64 0x0000C008180A0007#64 3#64 4#64))
    = some [0x00#8, 0x07#8, 0x00#8, 0x0A#8, 0x18#8, 0x08#8, 0xC0#8, 0x00#8, 0x00#8] := by decide
/-- P6, V-G3. -/
theorem test_xsRdst_faults : answerFrame (exec (.xsRdst 4#32) (loaded 1#64 2#64 3#64 4#64)) = some [0x04#8] ∧
    answerFrame (exec (.xsRdst 4#32) State.reset) = some [0x02#8] := by decide
/-- R164: after reset, after `MT.SEED` only, after `XS.INIT` only. -/
theorem test_rdstat : answerFrame (exec .rdstat State.reset) = some [0x00#8, 0x00#8, 0x00#8, 0x00#8, 0x00#8] ∧
    answerFrame (exec .rdstat (drawing 0#32)) = some [0x00#8, 0x01#8, 0x00#8, 0x00#8, 0x00#8] ∧
    answerFrame (exec .rdstat (loaded 0#64 0#64 0#64 0#64)) = some [0x00#8, 0x02#8, 0x00#8, 0x00#8, 0x00#8] := by decide +kernel

/-! ### The step and the port -/

/-- P4: an illegal frame is answered `01`; with nothing presented nothing is answered. -/
theorem test_step_illegal : answerFrame (step (presented State.reset [[0x11#8, 0x00#8]])) = some [0x01#8] ∧
    answerFrame (step (presented State.reset [[]])) = some [0x01#8] ∧ answerFrame (step State.reset) = none := by decide
/-- The table word of `MT.SEED` runs as the very next step, ahead of what else is presented. -/
theorem test_step_fetch_word :
    (answerMt (step ((presented State.reset [[0x30#8]]).withFetchWord 8 0x10))).map (fun e => (e.mti, e.seed)) = some (624#10, 0#32) := by
  decide +kernel
/-- R210: reset clears both engines. -/
theorem test_step_reset : answerMt (step { drawing 1#32 with pending := [.reset] }) = none ∧
    answerXs (step { loaded 1#64 2#64 3#64 4#64 with pending := [.reset] }) = none := by decide
/-- R217: a run whose frames all succeed is fault-free, one with an early draw is not. -/
theorem test_fault_free : (Host.Core.run Sys2Proof.core 1 (runStart [[0x30#8]]) matches .next _) = true ∧
    State.faultFree { State.reset with responses := [⟨.errNotInit, []⟩] } = false := by decide

/-! ### Witnesses: the hypotheses of each statement, met together, one for each clause, at a boundary where there is one -/

theorem witness_ResetLeavesNoContent : ({ drawing 1#32 with pending := [.reset] } : State).pending = .reset :: [] := rfl
theorem witness_StepRunsTheDecodedCommand :
    ((presented State.reset [[0x30#8]]).pending = .command [0x30#8] :: [] ∧ verdict [0x30#8] = (some .rdstat, none) ∧
      Instr.wellFormed .rdstat = true) ∧
    ((presented State.reset [[]]).pending = .command [] :: [] ∧ verdict [] = (none, some .emptyFrame)) ∧
    State.reset.pending = [] := by decide
theorem witness_OneResponseFramePerCommandFrame : (presented (drawing 1#32) [[0x11#8]]).pending = .command [0x11#8] :: [] := rfl
theorem witness_PortRunIsTheLeftFoldOfCommands :
    (presented State.reset [[0x11#8], [0x30#8]]).pending = [Instr.mtWord, .rdstat].map (fun i => HostEvent.command (encode i)) := rfl
theorem witness_EveryFrameSequenceIsAnsweredWhole :
    (presented State.reset [[0xFF#8], []]).pending = [[0xFF#8], []].map HostEvent.command := rfl
theorem witness_DecodingAnEncodedCommandGivesItBack :
    Instr.wellFormed (.mtIntr 0x80000000#32 0xFFFFFFFF#32) = true ∧ Instr.wellFormed (.xsInit []) = true := by decide
theorem witness_ADecodableFrameIsTheEncoding : verdict [0x21#8] = (some .xsWord, none) := by decide
theorem witness_ExactlyTheLegalFramesDecode :
    (presented State.reset [[0x10#8, 0#8, 0#8, 0#8]]).pending = .command [0x10#8, 0#8, 0#8, 0#8] :: [] ∧
    frameLegal [0x10#8, 0#8, 0#8, 0#8] = false := by decide
theorem witness_FirstFailingTestIsReported :
    (presented State.reset [[0xFF#8]]).pending = .command [0xFF#8] :: [] ∧
    verdict [0xFF#8] = (none, some (.unassignedOpcode 0xFF#8)) := by decide
theorem witness_AFaultChangesNothing :
    statusOf .mtWord State.reset ≠ .ok ∧ statusOf (.mtRdst 624#32) (drawing 1#32) ≠ .ok ∧
    statusOf (.mtIntr 0xFFFFFFFF#32 0x7FFFFFFF#32) (drawing 1#32) ≠ .ok ∧ statusOf (.xsInit []) State.reset ≠ .ok := by decide
theorem witness_AFaultChangesNothing_illegal :
    (presented State.reset [[]]).pending = .command [] :: [] ∧ verdict [] = (none, some .emptyFrame) := by decide
theorem witness_ReseedingForgetsTheHistory : ∀ i ∈ [Instr.mtWord, .mtBytes 700#32, .mtWordb 0#32], usesMt i = true := by decide
theorem witness_UnconstructedGeneratorIsRefused :
    (usesMt (.mtWordb 0#32) = true ∧ State.reset.mt = none) ∧ (usesXs (.xsRdst 4#32) = true ∧ State.reset.xs = none) ∧
    ¬((usesMt .mtWord = true ∧ (drawing 1#32).mt = none) ∨ (usesXs .mtWord = true ∧ (drawing 1#32).xs = none)) ∧
    [1#64, 2#64, 3#64, 4#64].length = 4 := by decide
theorem witness_PayloadLengthsAreTheTables :
    statusOf (.mtBytes 0#32) (drawing 1#32) = .ok ∧ statusOf (.mtRdst 623#32) (drawing 1#32) = .ok ∧
    statusOf (.xsRdst 3#32) (loaded 1#64 2#64 3#64 4#64) = .ok ∧ statusOf (.mtIntr 0x80000000#32 0xFFFFFFFF#32) (drawing 1#32) = .ok := by decide
theorem witness_TheEnginesNeverInteract :
    (usesMt .mtWord = true ∨ ∃ a, Instr.mtWord = .mtSeed a) ∧ (usesXs .xsWord = true ∨ ∃ ws, Instr.xsWord = .xsInit ws) ∧
    (∃ a, Instr.mtSeed 0#32 = .mtSeed a) ∧ (∃ ws, Instr.xsInit [] = .xsInit ws) :=
  ⟨.inl rfl, .inl rfl, ⟨0#32, rfl⟩, ⟨[], rfl⟩⟩
theorem witness_OnlyTheEnginesDecideTheResponse :
    (drawing 1#32).mt = (presented (drawing 1#32) [[]]).mt ∧ (drawing 1#32).xs = (presented (drawing 1#32) [[]]).xs := ⟨rfl, rfl⟩
theorem witness_OnlySeedingChangesTheSeed : (∃ e, (drawing 1#32).mt = some e) ∧ (∀ a, Instr.mtWord ≠ .mtSeed a) ∧
    (∃ a, Instr.mtSeed 5#32 = .mtSeed a) := ⟨⟨_, rfl⟩, fun _ h => Instr.noConfusion h, ⟨5#32, rfl⟩⟩
theorem witness_ValidFlagsFollowSeedInitAndReset :
    (∃ t, step { drawing 1#32 with pending := [.reset] } = .next t ∧ (drawing 1#32).mtValid = true ∧ t.mtValid = false) ∧
    (∃ t, step { loaded 1#64 2#64 3#64 4#64 with pending := [.reset] } = .next t ∧
      (loaded 1#64 2#64 3#64 4#64).xsValid = true ∧ t.xsValid = false) ∧
    (∃ t, step (presented State.reset [encode (.mtSeed 0#32)]) = .next t ∧ State.reset.mtValid = false ∧ t.mtValid = true) ∧
    (∃ t, step (presented State.reset [encode (.xsInit [0#64, 0#64, 0#64, 0#64])]) = .next t ∧ State.reset.xsValid = false ∧ t.xsValid = true) :=
  ⟨⟨_, rfl, rfl, rfl⟩, ⟨_, rfl, rfl, rfl⟩, ⟨_, rfl, rfl, rfl⟩, ⟨_, rfl, rfl, rfl⟩⟩
theorem witness_InspectionHasNoSideEffect : isInspection .mtRdseed = true ∧ isInspection (.mtRdst 624#32) = true := by decide
theorem witness_DrawsBeforeTheTwistMoveOnlyTheCursor : (drawing 1#32).mt = some ⟨⟨List.replicate 624 1#32, List.length_replicate⟩, 3#10, 7#32⟩ ∧
    (drawsOnce (.mtWordb 1#32) = true ∧ statusOf (.mtWordb 1#32) (drawing 1#32) = .ok ∧ (3#10).toNat < 624) ∧
    (3#10).toNat + (621#32).toNat ≤ 624 := by decide +kernel
theorem witness_InstancesShareNothing : (0 : Fin 2) ≠ 1 ∧ (Platform.reset 2).inst[(0 : Fin 2)] = State.reset := ⟨by decide, rfl⟩
theorem witness_EveryStepKeepsTheCursorInRange :
    CursorInRange (presented (seeded 1#32) [[0x1B#8]]) ∧ (∃ t, step (presented (seeded 1#32) [[0x1B#8]]) = .next t) :=
  ⟨fun _ h => by cases h; decide, ⟨_, rfl⟩⟩
theorem witness_EveryStepKeepsTheArrayOfItsSeed :
    ArrayComesFromSeed (presented (seeded 1#32) [[0x1B#8]]) ∧ (∃ t, step (presented (seeded 1#32) [[0x1B#8]]) = .next t) :=
  ⟨fun _ h => by cases h; exact ⟨0, rfl, fun _ => rfl⟩, ⟨_, rfl⟩⟩
theorem witness_MtSeedFillsTheArray : 0 < 623 ∧ 622 < 623 ∧ 623 < 624 := by decide
theorem witness_LaterTwistStepsReadRewrittenWords : 226 < 227 ∧ (227 ≤ 227 ∧ 227 < 623) ∧ (227 ≤ 622 ∧ 622 < 623) := by decide
theorem witness_MtWordAnswersTheTemperedCursorWord : State.reset.mt = none ∧
    (∃ e, ({ State.reset with mt := some ⟨mtFill 1#32, 623#10, 1#32⟩ } : State).mt = some e ∧ e.mti.toNat < 624) ∧
    (∃ e, (seeded 1#32).mt = some e ∧ 624 ≤ e.mti.toNat) := ⟨rfl, ⟨_, rfl, by decide⟩, ⟨_, rfl, by decide⟩⟩
theorem witness_TheTwistComesEvery624Draws : 1 ≤ 1 ∧ (∃ e, (seeded 1#32).mt = some e ∧ e.mti.toNat ≤ 624 ∧ 1 ≤ (1#32).toNat) :=
  ⟨by decide, ⟨_, rfl, by decide, by decide⟩⟩
theorem witness_DegenerateSeedsBehaveAsDerived : 226 < 624 ∧ 227 < 624 ∧ 453 < 624 ∧ 454 < 624 ∧ 622 < 624 ∧ 623 < 624 ∧ 227 ≤ 227 := by decide
theorem witness_CvtIsExact : 2 ^ 53 - 1 < 2 ^ 53 ∧ 0 < 2 ^ 53 := by decide
theorem witness_FdivRoundsOnceToNearestEven :
    F64.Canonical ⟨0, 0⟩ ∧ F64.Canonical ⟨2 ^ 53 - 1, -20⟩ ∧ (⟨2 ^ 53 - 1, -20⟩ : F64).mant ≠ 0 :=
  ⟨.inl ⟨rfl, rfl⟩, .inr ⟨by decide, by decide⟩, by decide⟩
theorem witness_FmulRoundsOnceToNearestEven : F64.Canonical ⟨2 ^ 52, 3⟩ ∧ F64.Canonical ⟨2 ^ 53 - 1, -60⟩ :=
  ⟨.inr ⟨by decide, by decide⟩, .inr ⟨by decide, by decide⟩⟩
theorem witness_TruncIsTheFloor : F64.Canonical ⟨0, 0⟩ ∧ F64.Canonical ⟨2 ^ 52 + 1, -1⟩ :=
  ⟨.inl ⟨rfl, rfl⟩, .inr ⟨by decide, by decide⟩⟩
theorem witness_FloatBitsHaveTheBinary64Fields : F64.Canonical ⟨2 ^ 52, -1074⟩ ∧ (⟨2 ^ 52, -1074⟩ : F64).mant ≠ 0 ∧
    (-1022 : Int) ≤ -1074 + 52 ∧ (-1074 + 52 : Int) ≤ 1023 := ⟨.inr ⟨by decide, by decide⟩, by decide, by decide, by decide⟩
theorem witness_AdapterFloatsStayNormal :
    (1 ≤ 1 ∧ 1 < 2 ^ 32) ∧ (1 ≤ 4294967295 ∧ 4294967295 < 2 ^ 32) ∧ ((1 ≤ 1000000000000 ∧ 1000000000000 < 2 ^ 32) ∨ 1000000000000 = 1000000000000) := by
  decide
theorem witness_RescaleIsBoundedAndMonotone : 1 ≤ 1 ∧ 4294967295 < 2 ^ 32 ∧ (0xFFFFFFFE#32).toNat ≤ 0xFFFFFFFE ∧
    (0#32).toNat ≤ (0xFFFFFFFF#32).toNat := by decide
theorem witness_AdaptersConsumeTheDrawOfMtWord :
    drawsOnce .mtF64 = true ∧ statusOf .mtF64 (drawing 1#32) = .ok ∧ drawsOnce (.mtWordr 5#32 6#32) = true ∧
    statusOf (.mtWordr 5#32 6#32) (drawing 1#32) = .ok := by decide
theorem witness_MtWordbAnswersTheRescaledDraw : State.reset.mt = none ∧ ((drawing 1#32).mt ≠ none ∧ 0#32 = 0#32) ∧
    ((drawing 1#32).mt ≠ none ∧ 1#32 ≠ 0#32) := by decide
theorem witness_MtWordrAnswersInTheRange : State.reset.mt = none ∧ ((drawing 1#32).mt ≠ none ∧ (7#32).toNat ≤ (7#32).toNat) ∧
    ((drawing 1#32).mt ≠ none ∧ (0#32).toNat < (0xFFFFFFFF#32).toNat) := by decide
theorem witness_MtIntAnswersHalfTheDraw : State.reset.mt = none ∧ (drawing 1#32).mt ≠ none := by decide
theorem witness_MtIntbAnswersTheRescaledDraw : State.reset.mt = none ∧ ((drawing 1#32).mt ≠ none ∧ (0x80000000#32).toInt ≤ 0) ∧
    ((drawing 1#32).mt ≠ none ∧ 0 < (0x7FFFFFFF#32).toInt) := by decide
theorem witness_MtIntrAnswersInTheSignedRange : State.reset.mt = none ∧
    ((drawing 1#32).mt ≠ none ∧ (5#32).toInt - (5#32).toInt ≤ 0) ∧
    ((drawing 1#32).mt ≠ none ∧ 2147483647 < (0x7FFFFFFF#32).toInt - (0xFFFFFFFF#32).toInt) ∧
    ((drawing 1#32).mt ≠ none ∧ 0 < (0x7FFFFFFE#32).toInt - (0xFFFFFFFF#32).toInt ∧
      (0x7FFFFFFE#32).toInt - (0xFFFFFFFF#32).toInt ≤ 2147483647) := by decide
theorem witness_MtBytesDividesSuccessiveDraws : State.reset.mt = none ∧ (seeded 1#32).mt ≠ none := ⟨rfl, by decide +kernel⟩
theorem witness_MtF64AnswersTheUnitFloat : State.reset.mt = none ∧ (drawing 1#32).mt ≠ none ∧
    f64Bits (unitFloat 5#32) = f64Bits (unitFloat 5#32) := ⟨rfl, by decide, rfl⟩
theorem witness_MtU64cAnswersTheCoarseValue : State.reset.mt = none ∧ (drawing 0#32).mt ≠ none ∧ temper 0#32 = 0#32 := by decide
theorem witness_XsInitLoadsExactlyFourWords : ([] : List U64).length ≠ 4 ∧ [1#64, 2#64, 3#64].length ≠ 4 ∧ [1#64, 2#64, 3#64, 4#64].length = 4 := by
  decide
theorem witness_XsWordScramblesThenRotates : State.reset.xs = none ∧
    (loaded 1#64 2#64 3#64 4#64).xs = some #v[1#64, 2#64, 3#64, 4#64] := ⟨rfl, rfl⟩
theorem witness_XsRdstReadsACheckpoint : State.reset.xs = none ∧ (loaded 1#64 2#64 3#64 4#64).xs = some #v[1#64, 2#64, 3#64, 4#64] ∧
    4 ≤ (4#32).toNat ∧ (3#32).toNat < 4 := ⟨rfl, rfl, by decide, by decide⟩
theorem witness_MtRdseedAnswersTheLastSeed : State.reset.mt = none ∧ (∃ e, (drawing 1#32).mt = some e) ∧
    (∀ b, Instr.mtSeed b ∉ [Instr.mtWord, .mtBytes 9#32]) := ⟨rfl, ⟨_, rfl⟩, fun b => by simp⟩
theorem witness_MtRdmtiAnswersTheCursor : State.reset.mt = none ∧ (∃ e, (seeded 1#32).mt = some e) := ⟨rfl, ⟨_, rfl⟩⟩
theorem witness_MtRdstAnswersTheStateWord : State.reset.mt = none ∧ ((drawing 1#32).mt ≠ none ∧ 624 ≤ (624#32).toNat) ∧
    ((∃ e, (drawing 1#32).mt = some e) ∧ (623#32).toNat < 624) := ⟨rfl, ⟨by decide, by decide⟩, ⟨⟨_, rfl⟩, by decide⟩⟩

end Sys2Proof.Tests
end

section
/-! What the rounding function answers as a rational number (00_scope.md R13): `roundQuotient n d` is the number of the model's format nearest
to `n / d`. The integer scale is one unit in the last place of the 53-bit significand: a number of the format is either a whole count of such
units or lies below the whole binade, so it is enough to round to the nearest integer. -/

namespace Sys2Proof.Machine

/-! ### The format -/

@[simp] theorem F64.value_zero : (⟨0, 0⟩ : F64).value = 0 := by simp [F64.value]

theorem F64.canonical_zero : F64.Canonical ⟨0, 0⟩ := .inl ⟨rfl, rfl⟩

/-- A canonical number is zero or has exactly 53 significant bits. -/
theorem F64.Canonical.eq_zero_or {x : F64} (hx : x.Canonical) :
    x = ⟨0, 0⟩ ∨ (2 ^ 52 ≤ x.mant ∧ x.mant < 2 ^ 53) := by
  refine hx.imp_left fun ⟨hm, he⟩ => ?_
  change F64.mk x.mant x.exp = _
  rw [hm, he]

/-- A number whose significand is below `2^53` has no value beyond the binade of its exponent. -/
theorem F64.value_lt {x : F64} (hx : x.mant < 2 ^ 53) : x.value < 2 ^ 53 * (2 : ℚ) ^ x.exp :=
  mul_lt_mul_of_pos_right (by exact_mod_cast hx) (by positivity)

theorem F64.le_value {x : F64} (hx : 2 ^ 52 ≤ x.mant) : 2 ^ 52 * (2 : ℚ) ^ x.exp ≤ x.value :=
  mul_le_mul_of_nonneg_right (by exact_mod_cast hx) (by positivity)

/-- A step of the exponent doubles the scale, so 53 bits at a smaller exponent stay below `2^52` units of a larger one. -/
theorem binade_le {e f : Int} (h : f < e) : 2 ^ 53 * (2 : ℚ) ^ f ≤ 2 ^ 52 * (2 : ℚ) ^ e := by
  calc 2 ^ 53 * (2 : ℚ) ^ f = 2 ^ 52 * 2 ^ (f + 1) := by rw [zpow_add_one₀ (by norm_num)]; ring
    _ ≤ 2 ^ 52 * 2 ^ e := mul_le_mul_of_nonneg_left (zpow_le_zpow_right₀ (by norm_num) h) (by norm_num)

/-- The exponents of nonzero canonical numbers are in the order of their values. -/
theorem F64.exp_le_of_value_le {x y : F64} (hx : 2 ^ 52 ≤ x.mant) (hy : y.mant < 2 ^ 53) (h : x.value ≤ y.value) :
    x.exp ≤ y.exp := by
  by_contra hlt
  have := calc y.value < 2 ^ 53 * (2 : ℚ) ^ y.exp := F64.value_lt hy
    _ ≤ 2 ^ 52 * 2 ^ x.exp := binade_le (not_le.mp hlt)
    _ ≤ x.value := F64.le_value hx
  exact absurd h (not_le.mpr this)

/-- A nonzero canonical number has a positive value. -/
theorem F64.value_pos {x : F64} (hx : 2 ^ 52 ≤ x.mant) : 0 < x.value :=
  lt_of_lt_of_le (by positivity) (F64.le_value hx)

/-- Each value of the format has one canonical form. -/
theorem F64.Canonical.eq_of_value_eq {x y : F64} (hx : x.Canonical) (hy : y.Canonical) (h : x.value = y.value) : x = y := by
  rcases hx.eq_zero_or with rfl | ⟨hx1, hx2⟩ <;> rcases hy.eq_zero_or with rfl | ⟨hy1, hy2⟩
  · rfl
  · exact absurd h (by simpa using (F64.value_pos hy1).ne)
  · exact absurd h (by simpa using (F64.value_pos hx1).ne')
  · have he : x.exp = y.exp :=
      le_antisymm (F64.exp_le_of_value_le hx1 hy2 h.le) (F64.exp_le_of_value_le hy1 hx2 h.ge)
    have hm : (x.mant : ℚ) = y.mant := by
      rw [F64.value, F64.value, he] at h
      exact mul_right_cancel₀ (by positivity) h
    change F64.mk x.mant x.exp = F64.mk y.mant y.exp
    rw [Nat.cast_injective hm, he]

/-- Measured in units of `2^e`, a canonical number is a natural number or lies below `2^52`. -/
theorem F64.Canonical.natural_or_lt {y : F64} (hy : y.Canonical) (e : Int) :
    (∃ j : ℕ, y.value = j * (2 : ℚ) ^ e) ∨ y.value < 2 ^ 52 * (2 : ℚ) ^ e := by
  rcases hy.eq_zero_or with rfl | ⟨-, hm⟩
  · exact .inl ⟨0, by simp⟩
  · rcases lt_or_ge y.exp e with he | he
    · exact .inr ((F64.value_lt hm).trans_le (binade_le he))
    · left
      obtain ⟨k, hk⟩ := Int.le.dest he
      refine ⟨y.mant * 2 ^ k, ?_⟩
      rw [F64.value, ← hk, zpow_add₀ (by norm_num), zpow_natCast]
      push_cast
      ring

/-- A canonical number that is nearest to a number of the format is that number. -/
theorem F64.IsNearest.eq {x y : F64} (hx : x.IsNearest y.value) (hy : y.Canonical) : x = y := by
  obtain ⟨hc, hnear⟩ := hx
  have h := (hnear y hy).1
  rw [sub_self, abs_zero, abs_nonpos_iff, sub_eq_zero] at h
  exact hc.eq_of_value_eq hy h.symm

/-! ### Rounding to an integer -/

/-- The integer taken is at most one half away from the quotient, and even where it is exactly one half away. -/
theorem nearestEven_abs_sub_le {n d : Nat} (hd : 0 < d) :
    |(n : ℚ) / d - nearestEven n d| ≤ 1 / 2 ∧
      (|(n : ℚ) / d - nearestEven n d| = 1 / 2 → nearestEven n d % 2 = 0) := by
  obtain ⟨hle, hge, heven⟩ := nearestEven_spec (n := n) hd
  have hdq : (0 : ℚ) < d := by exact_mod_cast hd
  have hle' : 2 * ((nearestEven n d : ℚ) * d) ≤ 2 * n + d := by exact_mod_cast hle
  have hge' : 2 * (n : ℚ) ≤ 2 * (nearestEven n d * d) + d := by exact_mod_cast hge
  have hn : (n : ℚ) = n / d * d := by field_simp
  constructor
  · rw [abs_le]
    constructor <;> refine le_of_mul_le_mul_right ?_ hdq <;> linarith
  · intro h
    apply heven
    rcases eq_or_eq_neg_of_abs_eq h with h | h
    · right
      have : 2 * (n : ℚ) = 2 * (nearestEven n d * d) + d := by
        linear_combination 2 * hn + 2 * d * h
      exact_mod_cast this
    · left
      have : 2 * ((nearestEven n d : ℚ) * d) = 2 * n + d := by
        linear_combination -2 * hn - 2 * d * h
      exact_mod_cast this

/-- No integer is nearer to the quotient than the one taken, which is even where another is equally near. -/
theorem nearestEven_nearest {n d : Nat} (hd : 0 < d) (j : ℕ) :
    |(n : ℚ) / d - nearestEven n d| ≤ |(n : ℚ) / d - j| ∧
      (|(n : ℚ) / d - nearestEven n d| = |(n : ℚ) / d - j| → j = nearestEven n d ∨ nearestEven n d % 2 = 0) := by
  obtain ⟨hhalf, heven⟩ := nearestEven_abs_sub_le (n := n) hd
  rcases eq_or_ne j (nearestEven n d) with rfl | hj
  · exact ⟨le_rfl, fun _ => .inl rfl⟩
  · have hone : (1 : ℚ) ≤ |(nearestEven n d : ℚ) - j| := by
      have : (1 : ℤ) ≤ |(nearestEven n d : ℤ) - j| := Int.one_le_abs (by omega)
      exact_mod_cast this
    have htri := abs_sub_le (nearestEven n d : ℚ) (n / d) j
    rw [abs_sub_comm (nearestEven n d : ℚ) (n / d)] at htri
    exact ⟨by linarith, fun h => .inr (heven (by linarith))⟩

/-- The same among the rationals a canonical number can stand at, in units of the last place: the naturals, and those
below a number that the quotient reaches. -/
theorem nearestEven_nearest_of_natural_or_lt {n d lo : Nat} {z : ℚ} (hd : 0 < d) (hlo : (lo : ℚ) ≤ n / d)
    (hz : (∃ j : ℕ, z = j) ∨ z < lo) :
    |(n : ℚ) / d - nearestEven n d| ≤ |(n : ℚ) / d - z| ∧
      (|(n : ℚ) / d - nearestEven n d| = |(n : ℚ) / d - z| → z = nearestEven n d ∨ nearestEven n d % 2 = 0) := by
  rcases hz with ⟨j, rfl⟩ | hz
  · exact_mod_cast nearestEven_nearest hd j
  · have hlt : |(n : ℚ) / d - nearestEven n d| < |(n : ℚ) / d - z| :=
      calc |(n : ℚ) / d - nearestEven n d| ≤ |(n : ℚ) / d - lo| := (nearestEven_nearest hd lo).1
        _ = n / d - lo := abs_of_nonneg (by linarith)
        _ < n / d - z := by linarith
        _ ≤ _ := le_abs_self _
    exact ⟨hlt.le, fun h => absurd h hlt.ne⟩

/-! ### Rounding to the format -/

/-- The exponent of one unit in the last place of `n / d`. -/
def ulpExp (n d : Nat) : Int := floorLog2 n d - 52

/-- The rounded significand of `n / d`, before a carry to `2^53` is moved to the exponent. -/
def roundedMant (n d : Nat) : Nat :=
  nearestEven (n * 2 ^ (-ulpExp n d).toNat) (d * 2 ^ (ulpExp n d).toNat)

/-- A nonzero quotient rounds to its rounded significand, with a carry moved to the exponent. -/
theorem roundQuotient_of_pos {n : Nat} (d : Nat) (hn : 0 < n) :
    roundQuotient n d = if roundedMant n d = 2 ^ 53 then ⟨2 ^ 52, ulpExp n d + 1⟩ else ⟨roundedMant n d, ulpExp n d⟩ :=
  if_neg hn.ne'

/-- The carry to the next exponent changes the form and not the value. -/
theorem roundQuotient_value {n : Nat} (d : Nat) (hn : 0 < n) :
    (roundQuotient n d).value = roundedMant n d * (2 : ℚ) ^ ulpExp n d := by
  rw [roundQuotient_of_pos d hn]
  split
  next h =>
    rw [h, F64.value, zpow_add_one₀ (by norm_num)]
    push_cast
    ring
  next => rfl

theorem roundQuotient_mant_even {n : Nat} (d : Nat) (hn : 0 < n) (h : roundedMant n d % 2 = 0) :
    (roundQuotient n d).mant % 2 = 0 := by
  rw [roundQuotient_of_pos d hn]
  split
  · norm_num
  · exact h

/-- In units of the last place, the rounded significand is the best of the values a canonical number can stand at. -/
theorem roundedMant_nearest {n d : Nat} (hn : 0 < n) (hd : 0 < d) {z : ℚ} (hz : (∃ j : ℕ, z = j) ∨ z < 2 ^ 52) :
    |(n : ℚ) / d * 2 ^ (-ulpExp n d) - roundedMant n d| ≤ |(n : ℚ) / d * 2 ^ (-ulpExp n d) - z| ∧
      (|(n : ℚ) / d * 2 ^ (-ulpExp n d) - roundedMant n d| = |(n : ℚ) / d * 2 ^ (-ulpExp n d) - z| →
        z = roundedMant n d ∨ roundedMant n d % 2 = 0) := by
  have hd' : 0 < d * 2 ^ (ulpExp n d).toNat := by positivity
  have hlo : ((2 ^ 52 : ℕ) : ℚ) ≤ ((n * 2 ^ (-ulpExp n d).toNat : ℕ) : ℚ) / ((d * 2 ^ (ulpExp n d).toNat : ℕ) : ℚ) := by
    rw [le_div_iff₀ (by exact_mod_cast hd')]
    exact_mod_cast (scaled_quotient_range hn hd).1
  rw [← scaled_quotient n d hd]
  exact nearestEven_nearest_of_natural_or_lt hd' hlo (by exact_mod_cast hz)

/-- `roundQuotient n d` is `n / d` rounded once, to nearest with ties to even (R13). -/
theorem roundQuotient_isNearest (n : Nat) {d : Nat} (hd : 0 < d) : (roundQuotient n d).IsNearest ((n : ℚ) / d) := by
  have hcanon : (roundQuotient n d).Canonical := (roundQuotient_canonical hd).imp_left fun h => by simp [h]
  refine ⟨hcanon, fun y hy => ?_⟩
  rcases Nat.eq_zero_or_pos n with rfl | hn
  · have h0 : roundQuotient 0 d = ⟨0, 0⟩ := rfl
    simp [h0]
  · have hu : (0 : ℚ) < 2 ^ ulpExp n d := by positivity
    have hq : (n : ℚ) / d = n / d * 2 ^ (-ulpExp n d) * 2 ^ ulpExp n d := by
      rw [zpow_neg, inv_mul_cancel_right₀ hu.ne']
    obtain ⟨z, hz⟩ : ∃ z : ℚ, y.value = z * 2 ^ ulpExp n d := ⟨y.value / 2 ^ ulpExp n d, by field_simp⟩
    have hz' : (∃ j : ℕ, z = j) ∨ z < 2 ^ 52 := by
      simpa only [hz, mul_left_inj' hu.ne', mul_lt_mul_iff_left₀ hu] using hy.natural_or_lt (ulpExp n d)
    obtain ⟨hle, htie⟩ := roundedMant_nearest hn hd hz'
    rw [roundQuotient_value d hn, hq, hz, ← sub_mul, ← sub_mul, abs_mul, abs_mul]
    refine ⟨mul_le_mul_of_nonneg_right hle (abs_nonneg _), fun h => ?_⟩
    have htie' := htie (mul_right_cancel₀ (abs_pos.mpr hu.ne').ne' h)
    refine htie'.imp (fun hzm => hy.eq_of_value_eq hcanon ?_) (roundQuotient_mant_even d hn)
    rw [hz, hzm, roundQuotient_value d hn]

end Sys2Proof.Machine
end

section
/-! The statements about the binary64 primitives (00_scope.md R13). -/

namespace Sys2Proof.Machine

/-- A power of two kept as a factor of the numerator or of the denominator, by the sign of its exponent. -/
theorem shifted_quotient (n : Nat) {d : Nat} (hd : 0 < d) (e : Int) :
    ((n * 2 ^ e.toNat : ℕ) : ℚ) / ((d * 2 ^ (-e).toNat : ℕ) : ℚ) = (n : ℚ) / d * 2 ^ e := by
  simpa using scaled_quotient n d hd (-e)

theorem shifted_natural (n : Nat) (e : Int) :
    ((n * 2 ^ e.toNat : ℕ) : ℚ) / ((2 ^ (-e).toNat : ℕ) : ℚ) = (n : ℚ) * 2 ^ e := by
  simpa using shifted_quotient n Nat.one_pos e

/-- A natural below `2^53` is a number of the format: zero, or its bits moved up to 53. -/
theorem exists_canonical_of_lt {v : Nat} (hv : v < 2 ^ 53) : ∃ y : F64, y.Canonical ∧ y.value = (v : ℚ) := by
  rcases Nat.eq_zero_or_pos v with rfl | hpos
  · exact ⟨⟨0, 0⟩, F64.canonical_zero, by simp⟩
  · have hlog : v.log2 < 53 := (Nat.log2_lt hpos.ne').mpr hv
    obtain ⟨k, hk⟩ : ∃ k, v.log2 + k = 52 := ⟨52 - v.log2, by omega⟩
    refine ⟨⟨v * 2 ^ k, -(k : Int)⟩, .inr ⟨?_, ?_⟩, ?_⟩
    · calc 2 ^ 52 = 2 ^ v.log2 * 2 ^ k := by rw [← hk, pow_add]
        _ ≤ v * 2 ^ k := Nat.mul_le_mul_right _ (Nat.log2_self_le hpos.ne')
    · calc v * 2 ^ k < 2 ^ (v.log2 + 1) * 2 ^ k := Nat.mul_lt_mul_of_pos_right Nat.lt_log2_self (by positivity)
        _ = 2 ^ 53 := by rw [← pow_add]; congr 1; omega
    · simp [F64.value]

/-- Settles O33: `v` itself is a number of the format, so the number nearest to it is `v`. -/
theorem cvtIsExact : Obligations.CvtIsExact := by
  intro v hv
  obtain ⟨y, hy, hval⟩ := exists_canonical_of_lt hv
  have hnear : (cvt v).IsNearest y.value := by
    simpa [hval, cvt] using roundQuotient_isNearest v (d := 1) Nat.one_pos
  rw [hnear.eq hy]
  exact ⟨hy, hval⟩

/-- Settles O34: the operands' exponents meet in one exact quotient of naturals, which is rounded once. -/
theorem fdivRoundsOnceToNearestEven : Obligations.FdivRoundsOnceToNearestEven := by
  intro a b _ _ hb
  have hb' : 0 < b.mant := Nat.pos_of_ne_zero hb
  have hq : a.value / b.value =
      ((a.mant * 2 ^ (a.exp - b.exp).toNat : ℕ) : ℚ) / ((b.mant * 2 ^ (b.exp - a.exp).toNat : ℕ) : ℚ) := by
    rw [← neg_sub a.exp b.exp, shifted_quotient _ hb', zpow_sub₀ (by norm_num), F64.value, F64.value]
    ring
  rw [hq]
  exact roundQuotient_isNearest _ (by positivity)

/-- Settles O35: the product of the significands with the sum of the exponents is exact, and is rounded once. -/
theorem fmulRoundsOnceToNearestEven : Obligations.FmulRoundsOnceToNearestEven := by
  intro a b _ _
  have hq : a.value * b.value =
      ((a.mant * b.mant * 2 ^ (a.exp + b.exp).toNat : ℕ) : ℚ) / ((2 ^ (-(a.exp + b.exp)).toNat : ℕ) : ℚ) := by
    rw [shifted_natural, zpow_add₀ (by norm_num), F64.value, F64.value]
    push_cast
    ring
  rw [hq]
  exact roundQuotient_isNearest _ (by positivity)

/-- Settles O36: the division of naturals in `trunc` is the floor of the exact quotient, which is the value. -/
theorem truncIsTheFloor : Obligations.TruncIsTheFloor := by
  intro x _
  rw [F64.value, ← shifted_natural, Rat.floor_natCast_div_natCast, trunc, Int.natCast_ediv]

/-- The fields of a word put together from an 11-bit exponent and a 52-bit fraction under a zero sign. -/
theorem fields_of_exponent_fraction {E f : Nat} (hE : E < 2 ^ 11) (hf : f < 2 ^ 52) :
    (BitVec.ofNat 64 (E * 2 ^ 52 + f)).extractLsb' 63 1 = 0#1 ∧
      ((BitVec.ofNat 64 (E * 2 ^ 52 + f)).extractLsb' 52 11).toNat = E ∧
      ((BitVec.ofNat 64 (E * 2 ^ 52 + f)).extractLsb' 0 52).toNat = f := by
  have hw : (BitVec.ofNat 64 (E * 2 ^ 52 + f)).toNat = E * 2 ^ 52 + f := by
    rw [BitVec.toNat_ofNat]; omega
  refine ⟨BitVec.eq_of_toNat_eq ?_, ?_, ?_⟩ <;> rw [BitVec.extractLsb'_toNat, hw, Nat.shiftRight_eq_div_pow]
  · rw [BitVec.toNat_ofNat]; omega
  · omega
  · omega

/-- Settles O37: in the normal range the biased exponent fits 11 bits and the fraction 52. -/
theorem floatBitsHaveTheBinary64Fields : Obligations.FloatBitsHaveTheBinary64Fields := by
  refine ⟨rfl, fun x hx hm hlow hhigh => ?_⟩
  obtain ⟨hm1, hm2⟩ := hx.resolve_left fun hzero => hm hzero.1
  obtain ⟨hsign, hexp, hfrac⟩ := fields_of_exponent_fraction (E := (x.exp + 52 + 1023).toNat) (f := x.mant - 2 ^ 52)
    (by omega) (by omega)
  rw [f64Bits, if_neg hm, hexp, hfrac]
  exact ⟨hsign, by omega, by omega⟩

end Sys2Proof.Machine
end

section
/-! What a command does, once for each kind of command: the commands that use the MT engine, those that use the XS engine (R181), the two that
construct an engine (R90, R140) and `RDSTAT` (R164). -/

namespace Sys2Proof.Machine

/-! ### The kinds of command -/

/-- The draws a command makes when it succeeds (R34, R117, R120). -/
def drawCount (i : Instr) : Nat :=
  match i with
  | .mtBytes len => len.toNat
  | .mtWord | .mtWordb _ | .mtWordr _ _ | .mtInt | .mtIntb _ | .mtIntr _ _ | .mtF64 | .mtU64c => 1
  | .mtSeed _ | .mtRdseed | .mtRdmti | .mtRdst _ | .xsInit _ | .xsWord | .xsRdst _ | .rdstat => 0

/-- The eight one-draw commands use the MT engine and make one draw. -/
theorem usesMt_and_drawCount_of_drawsOnce {i : Instr} (h : drawsOnce i = true) : usesMt i = true ∧ drawCount i = 1 := by
  cases i with
  | mtWord | mtWordb | mtWordr | mtInt | mtIntb | mtIntr | mtF64 | mtU64c => exact ⟨rfl, rfl⟩
  | _ => cases h

/-- A command works on the MT engine, on the XS engine, or is `RDSTAT` (R30). -/
theorem instr_kinds (i : Instr) :
    (usesMt i = true ∨ ∃ a, i = .mtSeed a) ∨ (usesXs i = true ∨ ∃ ws, i = .xsInit ws) ∨ i = .rdstat := by
  cases i <;> simp [usesMt, usesXs]

/-- A test that an operand fails reports a fault, never `OK` (R181). -/
theorem operandFault_ne_ok (i : Instr) : operandFault i ≠ some .ok := by
  cases i <;> simp [operandFault]

/-- A command whose status is `OK` has passed its operand tests (R188). -/
theorem operandFault_of_statusOf_ok {i : Instr} {s : State} (h : statusOf i s = .ok) : operandFault i = none := by
  unfold statusOf at h
  split at h
  · cases h
  · split at h
    · cases h
    · cases hfault : operandFault i with
      | none => rfl
      | some st => exact absurd (by simpa [hfault] using h) (fun hst : st = .ok => operandFault_ne_ok i (hst ▸ hfault))

/-! ### The shared tests, as rules of rewriting -/

theorem State.withMt_congr {s : State} {k k' : MtEngine → Answer} (h : ∀ e, s.mt = some e → k e = k' e) :
    s.withMt k = s.withMt k' := by
  cases hm : s.mt with
  | none => rw [State.withMt_none hm, State.withMt_none hm]
  | some e => rw [State.withMt_some hm, State.withMt_some hm, h e hm]

theorem State.withXs_congr {s : State} {k k' : Vector U64 4 → Answer} (h : ∀ v, s.xs = some v → k v = k' v) :
    s.withXs k = s.withXs k' := by
  cases hx : s.xs with
  | none => rw [State.withXs_none hx, State.withXs_none hx]
  | some v => rw [State.withXs_some hx, State.withXs_some hx, h v hx]

theorem State.rangeCheck_congr {s : State} {c d : Prop} [Decidable c] [Decidable d] (h : c ↔ d) (k : Answer) :
    s.rangeCheck c k = s.rangeCheck d k := by
  simp [State.rangeCheck, h]

/-- Two range tests in a row are one (R116). -/
theorem State.rangeCheck_rangeCheck {s : State} {c d : Prop} [Decidable c] [Decidable d] (k : Answer) :
    s.rangeCheck c (s.rangeCheck d k) = s.rangeCheck (c ∨ d) k := by
  by_cases hc : c <;> simp [State.rangeCheck, hc]

/-- Writing back the engine that is there changes nothing. -/
theorem State.with_mt_self {s : State} {m : Option MtEngine} (h : s.mt = m) : { s with mt := m } = s := by
  subst h; rfl

theorem State.with_xs_self {s : State} {x : Option (Vector U64 4)} (h : s.xs = x) : { s with xs := x } = s := by
  subst h; rfl

/-! ### The commands that use an engine -/

/-- A command on the MT engine: the test of the valid flag, the test of the operands, `n` draws, one answer. -/
def State.mtCommand (s : State) (operandsFail : Bool) (n : Nat) (payload : MtEngine → List Byte) : Answer :=
  s.withMt fun e => s.rangeCheck operandsFail ({ s with mt := some (mtDraws n e).2 }.answer (payload e))

/-- A command on the XS engine: the test of the valid flag, the test of the operands, the engine's next state, one answer. -/
def State.xsCommand (s : State) (operandsFail : Bool) (next : Vector U64 4 → Vector U64 4)
    (payload : Vector U64 4 → List Byte) : Answer :=
  s.withXs fun v => s.rangeCheck operandsFail ({ s with xs := some (next v) }.answer (payload v))

/-- An inspection is a command of no draws (R46). -/
theorem State.mtCommand_inspects (s : State) {operandsFail : Bool} {c : Prop} [Decidable c]
    (hc : c ↔ operandsFail = true) (payload : MtEngine → List Byte) :
    (s.withMt fun e => s.rangeCheck c (s.answer (payload e))) = s.mtCommand operandsFail 0 payload :=
  State.withMt_congr fun e he => by
    rw [State.rangeCheck_congr hc, mtDraws_zero, State.with_mt_self he]

/-- A draw adapter is a command of one draw, which makes its payload of the word drawn (R120). -/
theorem State.mtCommand_draws (s : State) {operandsFail : Bool} {c : Prop} [Decidable c]
    (hc : c ↔ operandsFail = true) (payload : U32 → List Byte) :
    (s.withMt fun e => s.rangeCheck c (s.drawAnswer e payload)) =
      s.mtCommand operandsFail 1 fun e => payload (mtDraw e).1 :=
  State.withMt_congr fun _ _ => State.rangeCheck_congr hc _

/-- What every command that uses the MT engine does (R181, R188). -/
theorem exec_of_usesMt {i : Instr} (h : usesMt i = true) :
    ∃ payload : MtEngine → List Byte, ∀ s, exec i s = s.mtCommand (operandFault i).isSome (drawCount i) payload := by
  cases i with
  | mtWord => exact ⟨fun e => le32 (mtDraw e).1, fun s => rfl⟩
  | mtInt => exact ⟨fun e => le32 ((mtDraw e).1 >>> 1), fun s => rfl⟩
  | mtF64 => exact ⟨fun e => le64 (f64Bits (unitFloat (mtDraw e).1)), fun s => rfl⟩
  | mtU64c => exact ⟨fun e => le64 (coarse (mtDraw e).1), fun s => rfl⟩
  | mtWordb max => exact ⟨_, fun s => s.mtCommand_draws (BitVec.toNat_eq.trans Option.isSome_ite.symm) _⟩
  | mtWordr min max => exact ⟨_, fun s => s.mtCommand_draws Option.isSome_ite.symm _⟩
  | mtIntb max => exact ⟨_, fun s => s.mtCommand_draws Option.isSome_ite.symm _⟩
  | mtIntr min max =>
    exact ⟨_, fun s => (State.withMt_congr fun _ _ => State.rangeCheck_rangeCheck _).trans
      (s.mtCommand_draws Option.isSome_ite.symm _)⟩
  | mtBytes len => exact ⟨_, fun s => rfl⟩
  | mtRdseed => exact ⟨_, fun s => s.mtCommand_inspects (c := False) (by simp [operandFault]) _⟩
  | mtRdmti => exact ⟨_, fun s => s.mtCommand_inspects (c := False) (by simp [operandFault]) _⟩
  | mtRdst k => exact ⟨_, fun s => s.mtCommand_inspects Option.isSome_ite.symm _⟩
  | _ => cases h

/-- What every command that uses the XS engine does (R181, R188). -/
theorem exec_of_usesXs {i : Instr} (h : usesXs i = true) :
    ∃ (next : Vector U64 4 → Vector U64 4) (payload : Vector U64 4 → List Byte),
      ∀ s, exec i s = s.xsCommand (operandFault i).isSome next payload := by
  cases i with
  | xsWord => exact ⟨fun v => (xsNext v).2, fun v => le64 (xsNext v).1, fun s => rfl⟩
  | xsRdst k =>
    refine ⟨id, fun v => if h : k.toNat < 4 then le64 v[k.toNat] else [], fun s => State.withXs_congr fun v hv => ?_⟩
    rw [State.rangeCheck_congr (c := (operandFault (.xsRdst k)).isSome = true) Option.isSome_ite, id_eq,
      State.with_xs_self hv]
    by_cases hk : k.toNat < 4
    · simp only [State.rangeCheck_passes (Nat.not_le.mpr hk), dif_pos hk]
    · simp only [State.rangeCheck_fails (Nat.not_lt.mp hk), dif_neg hk, State.raise_eq]
  | _ => cases h

/-! ### The commands that construct an engine, and `RDSTAT` -/

/-- The MT engine right after `MT.SEED a` (R90). -/
def seededEngine (a : U32) : MtEngine := { mt := mtFill a, mti := 624#10, seed := a }

theorem exec_mtSeed (a : U32) (s : State) :
    exec (.mtSeed a) s = .next ({ s with mt := some (seededEngine a) }.respond .ok []) := rfl

/-- `XS.INIT` loads an engine or answers `ERR_INVALID_STATE`, by the number of its words alone (R140). -/
theorem exec_xsInit (ws : List U64) :
    (∃ v, ws.length = 4 ∧ ∀ s, exec (.xsInit ws) s = .next ({ s with xs := some v }.respond .ok [])) ∨
      (ws.length ≠ 4 ∧ ∀ s, exec (.xsInit ws) s = .next (s.respond .errInvalidState [])) := by
  simp only [exec, execXsInit]
  split
  next x0 x1 x2 x3 => exact .inl ⟨_, rfl, fun s => rfl⟩
  next hne =>
    refine .inr ⟨fun hlen => ?_, fun s => rfl⟩
    obtain ⟨x0, x1, x2, x3, rfl⟩ := List.length_eq_four.mp hlen
    exact hne x0 x1 x2 x3 rfl

theorem exec_rdstat (s : State) : exec .rdstat s = .next (s.respond .ok (le32 s.statusWord)) := rfl

/-! ### What a command can do to the engines -/

/-- What the command `i` can make of the MT engine: keep it, seed it, or draw from it. -/
inductive MtChange (i : Instr) : Option MtEngine → Option MtEngine → Prop where
  | keeps (m : Option MtEngine) : MtChange i m m
  | seeds (m : Option MtEngine) (a : U32) (h : i = .mtSeed a) : MtChange i m (some (seededEngine a))
  | draws (e : MtEngine) : MtChange i (some e) (some (mtDraws (drawCount i) e).2)

/-- What the command `i` can make of the XS engine: keep it, load it with four words, or advance it. -/
inductive XsChange (i : Instr) : Option (Vector U64 4) → Option (Vector U64 4) → Prop where
  | keeps (x : Option (Vector U64 4)) : XsChange i x x
  | loads (x : Option (Vector U64 4)) (v : Vector U64 4) (ws : List U64) (h : i = .xsInit ws) (hlen : ws.length = 4) :
    XsChange i x (some v)
  | advances (v v' : Vector U64 4) : XsChange i (some v) (some v')

/-- A command on the MT engine always answers, and what it does is decided by that engine alone. -/
theorem exec_actsOnMt {i : Instr} (h : usesMt i = true ∨ ∃ a, i = .mtSeed a) (m : Option MtEngine) :
    ∃ (m' : Option MtEngine) (r : Response), MtChange i m m' ∧ ∀ s : State, s.mt = m →
      exec i s = .next { s with mt := m', responses := s.responses ++ [r] } := by
  rcases h with h | ⟨a, rfl⟩
  · obtain ⟨payload, hexec⟩ := exec_of_usesMt h
    cases m with
    | none => exact ⟨none, ⟨.errNotInit, []⟩, .keeps _, fun s hm => by
        rw [hexec, State.mtCommand, State.withMt_none hm, ← hm]; rfl⟩
    | some e =>
      by_cases hfail : (operandFault i).isSome = true
      · exact ⟨some e, ⟨.errRange, []⟩, .keeps _, fun s hm => by
          rw [hexec, State.mtCommand, State.withMt_some hm, State.rangeCheck_fails hfail, ← hm]; rfl⟩
      · exact ⟨_, ⟨.ok, payload e⟩, .draws e, fun s hm => by
          rw [hexec, State.mtCommand, State.withMt_some hm, State.rangeCheck_passes hfail]; rfl⟩
  · exact ⟨_, ⟨.ok, []⟩, .seeds m a rfl, fun s _ => exec_mtSeed a s⟩

/-- A command on the XS engine always answers, and what it does is decided by that engine alone. -/
theorem exec_actsOnXs {i : Instr} (h : usesXs i = true ∨ ∃ ws, i = .xsInit ws) (x : Option (Vector U64 4)) :
    ∃ (x' : Option (Vector U64 4)) (r : Response), XsChange i x x' ∧ ∀ s : State, s.xs = x →
      exec i s = .next { s with xs := x', responses := s.responses ++ [r] } := by
  rcases h with h | ⟨ws, rfl⟩
  · obtain ⟨next, payload, hexec⟩ := exec_of_usesXs h
    cases x with
    | none => exact ⟨none, ⟨.errNotInit, []⟩, .keeps _, fun s hx => by
        rw [hexec, State.xsCommand, State.withXs_none hx, ← hx]; rfl⟩
    | some v =>
      by_cases hfail : (operandFault i).isSome = true
      · exact ⟨some v, ⟨.errRange, []⟩, .keeps _, fun s hx => by
          rw [hexec, State.xsCommand, State.withXs_some hx, State.rangeCheck_fails hfail, ← hx]; rfl⟩
      · exact ⟨_, ⟨.ok, payload v⟩, .advances v (next v), fun s hx => by
          rw [hexec, State.xsCommand, State.withXs_some hx, State.rangeCheck_passes hfail]; rfl⟩
  · rcases exec_xsInit ws with ⟨v, hlen, hexec⟩ | ⟨-, hexec⟩
    · exact ⟨_, ⟨.ok, []⟩, .loads x v ws rfl hlen, fun s _ => hexec s⟩
    · exact ⟨x, ⟨.errInvalidState, []⟩, .keeps x, fun s hx => by rw [hexec, ← hx]; rfl⟩

/-- Every command always answers, with one response, and what it does is decided by the two engines (R29, R50). -/
theorem exec_acts (i : Instr) (m : Option MtEngine) (x : Option (Vector U64 4)) :
    ∃ (m' : Option MtEngine) (x' : Option (Vector U64 4)) (r : Response), MtChange i m m' ∧ XsChange i x x' ∧
      ∀ s : State, s.mt = m → s.xs = x →
        exec i s = .next { s with mt := m', xs := x', responses := s.responses ++ [r] } := by
  rcases instr_kinds i with h | h | rfl
  · obtain ⟨m', r, hchange, hexec⟩ := exec_actsOnMt h m
    exact ⟨m', x, r, hchange, .keeps x, fun s hm hx => by rw [hexec s hm, ← hx]⟩
  · obtain ⟨x', r, hchange, hexec⟩ := exec_actsOnXs h x
    exact ⟨m, x', r, .keeps m, hchange, fun s hm hx => by rw [hexec s hx, ← hm]⟩
  · refine ⟨m, x, ⟨.ok, le32 (BitVec.ofNat 32 (m.isSome.toNat + 2 * x.isSome.toNat))⟩, .keeps m, .keeps x, ?_⟩
    rintro s rfl rfl
    exact exec_rdstat s

/-- What follows when a command answers: the changes of the two engines, and the ports. -/
theorem exec_next {i : Instr} {s t : State} (h : exec i s = .next t) :
    MtChange i s.mt t.mt ∧ XsChange i s.xs t.xs ∧ t.pending = s.pending ∧ ∃ r, t.responses = s.responses ++ [r] := by
  obtain ⟨m', x', r, hmt, hxs, hexec⟩ := exec_acts i s.mt s.xs
  obtain rfl : _ = t := Host.Outcome.next.inj ((hexec s rfl rfl).symm.trans h)
  exact ⟨hmt, hxs, rfl, r, rfl⟩

/-- No command clears the MT engine. -/
theorem MtChange.keeps_valid {i : Instr} {m m' : Option MtEngine} (h : MtChange i m m') (hm : m.isSome = true) :
    m'.isSome = true := by
  cases h with
  | keeps => exact hm
  | seeds => rfl
  | draws => rfl

/-- An MT engine comes to be by `MT.SEED` alone. -/
theorem MtChange.seeds_of_invalid {i : Instr} {m m' : Option MtEngine} (h : MtChange i m m') (hm : m.isSome = false)
    (hm' : m'.isSome = true) : ∃ a, i = .mtSeed a := by
  cases h with
  | keeps => exact absurd hm' (by simp [hm])
  | seeds _ a hi => exact ⟨a, hi⟩
  | draws => cases hm

/-- No command clears the XS engine. -/
theorem XsChange.keeps_valid {i : Instr} {x x' : Option (Vector U64 4)} (h : XsChange i x x') (hx : x.isSome = true) :
    x'.isSome = true := by
  cases h with
  | keeps => exact hx
  | loads => rfl
  | advances => rfl

/-- An XS engine comes to be by an `XS.INIT` of four words alone. -/
theorem XsChange.loads_of_invalid {i : Instr} {x x' : Option (Vector U64 4)} (h : XsChange i x x')
    (hx : x.isSome = false) (hx' : x'.isSome = true) : ∃ ws : List U64, ws.length = 4 ∧ i = .xsInit ws := by
  cases h with
  | keeps => exact absurd hx' (by simp [hx])
  | loads _ _ ws hi hlen => exact ⟨ws, hlen, hi⟩
  | advances => cases hx

/-! ### Draws that the array lasts for -/

theorem mtDraws_snd_succ (n : Nat) (e : MtEngine) : (mtDraws (n + 1) e).2 = (mtDraws n (mtDraw e).2).2 := rfl

/-- What every draw keeps, any number of draws keeps. -/
theorem mtDraws_keep {P : MtEngine → Prop} (hdraw : ∀ e, P e → P (mtDraw e).2) (n : Nat) {e : MtEngine} (he : P e) :
    P (mtDraws n e).2 := by
  induction n generalizing e with
  | zero => exact he
  | succ n ih => exact ih (hdraw e he)

theorem mtDraws_seed (n : Nat) (e : MtEngine) : (mtDraws n e).2.seed = e.seed :=
  mtDraws_keep (P := fun e' => e'.seed = e.seed) (fun e' he' => (mtDraw_seed e').trans he') n rfl

/-- The cursor after a draw while the array lasts. -/
theorem mti_add_one_toNat {c : BitVec 10} (h : c.toNat < 624) : (c + 1#10).toNat = c.toNat + 1 := by
  rw [BitVec.toNat_add, BitVec.toNat_ofNat]
  omega

/-- Draws that end at the array's end or before it move the cursor and nothing else (R21, R34). -/
theorem mtDraws_within (n : Nat) {e : MtEngine} (h : e.mti.toNat + n ≤ 624) :
    (mtDraws n e).2 = { e with mti := BitVec.ofNat 10 (e.mti.toNat + n) } := by
  induction n generalizing e with
  | zero => simp [mtDraws_zero]
  | succ n ih =>
    have hlt : e.mti.toNat < 624 := by omega
    have hnext : (e.mti + 1#10).toNat = e.mti.toNat + 1 := mti_add_one_toNat hlt
    rw [mtDraws_snd_succ, mtDraw_of_lt hlt, ih (by simp only [hnext]; omega)]
    simp only [hnext, Nat.add_assoc, Nat.add_comm 1 n]

end Sys2Proof.Machine
end

section
/-! What one step does (20_memory.md R49, R51, 70_reset_and_hazards.md R210, R218), by the host's next act. -/

namespace Sys2Proof

/-! ### A frame that decodes is the frame of its command (R71) -/

theorem opcode_eq {opcode : Byte} {n : Nat} (h : opcode.toNat = n) : opcode = BitVec.ofNat 8 n := by
  rw [← h, BitVec.ofNat_toNat, BitVec.setWidth_eq]

/-- Format `Z`: the opcode alone. -/
theorem cons_eq_encode_of_decodeZ {opcode : Byte} {n : Nat} {ops : List Byte} {i j : Instr}
    (henc : encode j = [BitVec.ofNat 8 n]) (hop : opcode.toNat = n) (h : decodeZ j ops = .ok i) : opcode :: ops = encode i := by
  obtain ⟨rfl, rfl⟩ := decodeZ_eq_ok.mp h
  rw [henc, opcode_eq hop]

/-- Format `A`: the opcode and the operand's bytes. -/
theorem cons_eq_encode_of_decodeA {opcode : Byte} {n : Nat} {ops : List Byte} {i : Instr} {j : U32 → Instr}
    (henc : ∀ a, encode (j a) = BitVec.ofNat 8 n :: le32 a) (hop : opcode.toNat = n) (h : decodeA j ops = .ok i) :
    opcode :: ops = encode i := by
  obtain ⟨a, rfl, rfl⟩ := decodeA_eq_ok.mp h
  rw [henc, opcode_eq hop]

/-- Format `AB`: the opcode and the bytes of the two operands. -/
theorem cons_eq_encode_of_decodeAB {opcode : Byte} {n : Nat} {ops : List Byte} {i : Instr} {j : U32 → U32 → Instr}
    (henc : ∀ a b, encode (j a b) = BitVec.ofNat 8 n :: (le32 a ++ le32 b)) (hop : opcode.toNat = n)
    (h : decodeAB j ops = .ok i) : opcode :: ops = encode i := by
  obtain ⟨a, b, rfl, rfl⟩ := decodeAB_eq_ok.mp h
  rw [henc, opcode_eq hop]

/-- Format `V`: the opcode and the bytes of the words. -/
theorem cons_eq_encode_of_decodeV {opcode : Byte} {n : Nat} {ops : List Byte} {i : Instr} {j : List U64 → Instr}
    (henc : ∀ ws, encode (j ws) = BitVec.ofNat 8 n :: ws.flatMap le64) (hop : opcode.toNat = n) (h : decodeV j ops = .ok i) :
    opcode :: ops = encode i := by
  obtain ⟨ws, rfl, rfl⟩ := decodeV_eq_ok.mp h
  rw [henc, opcode_eq hop]

/-- A frame that decodes is the encoding of what it decodes to. -/
theorem eq_encode_of_decode {f : Frame} {i : Instr} (h : decode f = .ok i) : f = encode i := by
  cases f with
  | nil => cases h
  | cons opcode ops =>
    unfold decode at h
    simp only at h
    split at h
    next hop => exact cons_eq_encode_of_decodeA (fun _ => rfl) hop h
    next hop => exact cons_eq_encode_of_decodeZ rfl hop h
    next hop => exact cons_eq_encode_of_decodeA (fun _ => rfl) hop h
    next hop => exact cons_eq_encode_of_decodeAB (fun _ _ => rfl) hop h
    next hop => exact cons_eq_encode_of_decodeZ rfl hop h
    next hop => exact cons_eq_encode_of_decodeA (fun _ => rfl) hop h
    next hop => exact cons_eq_encode_of_decodeAB (fun _ _ => rfl) hop h
    next hop => exact cons_eq_encode_of_decodeA (fun _ => rfl) hop h
    next hop => exact cons_eq_encode_of_decodeZ rfl hop h
    next hop => exact cons_eq_encode_of_decodeZ rfl hop h
    next hop => exact cons_eq_encode_of_decodeZ rfl hop h
    next hop => exact cons_eq_encode_of_decodeZ rfl hop h
    next hop => exact cons_eq_encode_of_decodeA (fun _ => rfl) hop h
    next hop => exact cons_eq_encode_of_decodeV (fun _ => rfl) hop h
    next hop => exact cons_eq_encode_of_decodeZ rfl hop h
    next hop => exact cons_eq_encode_of_decodeA (fun _ => rfl) hop h
    next hop => exact cons_eq_encode_of_decodeZ rfl hop h
    next => cases h

end Sys2Proof

namespace Sys2Proof.Machine

/-! ### The step -/

theorem step_idle {s : State} (h : s.pending = []) : step s = .next s := by
  simp [step, State.takeEvent_nil h]

theorem step_reset {s : State} {rest : List HostEvent} (h : s.pending = .reset :: rest) :
    step s = .next ({ s with pending := rest } : State).applyReset := by
  simp [step, State.takeEvent_cons h]

theorem step_command {s : State} {f : Frame} {i : Instr} {rest : List HostEvent} (h : s.pending = .command f :: rest)
    (hf : decode f = .ok i) : step s = exec i { s with pending := rest } := by
  simp [step, State.takeEvent_cons h, hf]

theorem step_illegal {s : State} {f : Frame} {x : Illegal} {rest : List HostEvent}
    (h : s.pending = .command f :: rest) (hf : decode f = .error x) :
    step s = .next (({ s with pending := rest } : State).respond .errIllegal []) := by
  simp [step, State.takeEvent_cons h, hf, State.raise]

/-- What one step can do to the engines: nothing, clear both on a reset, or what a command presented next does. -/
theorem step_next {s t : State} (h : step s = .next t) :
    (t.mt = s.mt ∧ t.xs = s.xs) ∨
    (s.pending.head? = some .reset ∧ t.mt = none ∧ t.xs = none) ∨
    ∃ i, s.pending.head? = some (.command (encode i)) ∧ MtChange i s.mt t.mt ∧ XsChange i s.xs t.xs := by
  cases hp : s.pending with
  | nil =>
    obtain rfl : s = t := Host.Outcome.next.inj ((step_idle hp).symm.trans h)
    exact .inl ⟨rfl, rfl⟩
  | cons ev rest =>
    cases ev with
    | reset =>
      obtain rfl : _ = t := Host.Outcome.next.inj ((step_reset hp).symm.trans h)
      exact .inr (.inl ⟨rfl, rfl, rfl⟩)
    | command f =>
      cases hf : decode f with
      | error x =>
        obtain rfl : _ = t := Host.Outcome.next.inj ((step_illegal hp hf).symm.trans h)
        exact .inl ⟨rfl, rfl⟩
      | ok i =>
        obtain ⟨hmt, hxs, -, -⟩ := exec_next ((step_command hp hf).symm.trans h)
        exact .inr (.inr ⟨i, by rw [eq_encode_of_decode hf]; rfl, hmt, hxs⟩)

/-- An invariant of the MT engine: what `MT.SEED` establishes and a draw keeps, every step keeps. -/
theorem step_keeps_mt {P : MtEngine → Prop} (hseed : ∀ a, P (seededEngine a)) (hdraw : ∀ e, P e → P (mtDraw e).2)
    {s t : State} (hs : ∀ e, s.mt = some e → P e) (h : step s = .next t) : ∀ e, t.mt = some e → P e := by
  rcases step_next h with ⟨hmt, -⟩ | ⟨-, hmt, -⟩ | ⟨i, -, hchange, -⟩
  · rwa [hmt]
  · simp [hmt]
  · generalize s.mt = m, t.mt = m' at hs hchange
    cases hchange with
    | keeps => exact hs
    | seeds _ a => rintro _ ⟨⟩; exact hseed a
    | draws e => rintro _ ⟨⟩; exact mtDraws_keep hdraw _ (hs e rfl)

end Sys2Proof.Machine
end

section
/-! The statements about the state and its invariants (10_state.md). -/

namespace Sys2Proof.Machine

/-- Settles O23: `MT.SEED` sets the cursor to 624; a draw moves it up by one below 624, and to 1 when it twists. -/
theorem everyStepKeepsTheCursorInRange : Obligations.EveryStepKeepsTheCursorInRange := by
  intro s t hs h
  refine step_keeps_mt (P := fun e => 1 ≤ e.mti.toNat ∧ e.mti.toNat ≤ 624) ?_ ?_ hs h
  · intro a
    simp [seededEngine]
  · rintro e -
    rcases Nat.lt_or_ge e.mti.toNat 624 with hlt | hge
    · have hnext := mti_add_one_toNat hlt
      rw [mtDraw_of_lt hlt]
      exact ⟨by simp only [hnext]; omega, by simp only [hnext]; omega⟩
    · simp [mtDraw_of_ge hge]

/-- Settles O24: `MT.SEED` starts at no twist, a draw below 624 twists nothing, and a draw at 624 adds one twist. -/
theorem everyStepKeepsTheArrayOfItsSeed : Obligations.EveryStepKeepsTheArrayOfItsSeed := by
  intro s t hs h
  refine step_keeps_mt
    (P := fun e => ∃ k : Nat, e.mt = twistTimes k (mtFill e.seed) ∧ (k = 0 → e.mti = 624#10)) ?_ ?_ hs h
  · intro a
    exact ⟨0, rfl, fun _ => rfl⟩
  · rintro e ⟨k, harray, hcursor⟩
    rcases Nat.lt_or_ge e.mti.toNat 624 with hlt | hge
    · rw [mtDraw_of_lt hlt]
      refine ⟨k, harray, fun hk => absurd hlt ?_⟩
      rw [hcursor hk]
      decide
    · rw [mtDraw_of_ge hge]
      refine ⟨k + 1, ?_, fun hk => absurd hk k.succ_ne_zero⟩
      rw [twistTimes, Function.iterate_succ_apply', harray, twistTimes]

/-- Settles O15: what a command on one engine does is decided by that engine and written to that engine. -/
theorem theEnginesNeverInteract : Obligations.TheEnginesNeverInteract := by
  intro i s
  obtain ⟨_, _, _, -, -, hexec⟩ := exec_acts i s.mt s.xs
  have hs := hexec s rfl rfl
  refine ⟨_, hs, fun hi => ?_, fun hi => ?_⟩
  · obtain ⟨m', r, -, hact⟩ := exec_actsOnMt hi s.mt
    rw [← Host.Outcome.next.inj ((hact s rfl).symm.trans hs)]
    exact ⟨rfl, fun x => hact { s with xs := x } rfl⟩
  · obtain ⟨x', r, -, hact⟩ := exec_actsOnXs hi s.xs
    rw [← Host.Outcome.next.inj ((hact s rfl).symm.trans hs)]
    exact ⟨rfl, fun m => hact { s with mt := m } rfl⟩

/-- Settles O16: what a command makes of the two engines, and its response, are chosen before the state is. -/
theorem onlyTheEnginesDecideTheResponse : Obligations.OnlyTheEnginesDecideTheResponse := by
  intro i s u hmt hxs
  obtain ⟨m', x', r, -, -, hexec⟩ := exec_acts i s.mt s.xs
  exact ⟨m', x', r, hexec s rfl rfl, hexec u hmt.symm hxs.symm⟩

/-- Settles O17: a command other than `MT.SEED` keeps the engine or draws from it, and no draw changes the seed. -/
theorem onlySeedingChangesTheSeed : Obligations.OnlySeedingChangesTheSeed := by
  intro i s e he
  by_cases hseed : ∃ a, i = .mtSeed a
  · obtain ⟨a, rfl⟩ := hseed
    exact ⟨_, seededEngine a, exec_mtSeed a s, rfl, fun h => absurd rfl (h a), fun _ hb => Instr.mtSeed.inj hb⟩
  · obtain ⟨m', x', r, hchange, -, hexec⟩ := exec_acts i s.mt s.xs
    have hs := hexec s rfl rfl
    rw [he] at hchange
    cases hchange with
    | keeps => exact ⟨_, e, hs, rfl, fun _ => rfl, fun a ha => absurd ⟨a, ha⟩ hseed⟩
    | seeds _ a h => exact absurd ⟨a, h⟩ hseed
    | draws => exact ⟨_, _, hs, rfl, fun _ => mtDraws_seed _ e, fun a ha => absurd ⟨a, ha⟩ hseed⟩

/-- Settles O18: no command clears an engine; the one that makes an MT engine out of none is `MT.SEED`, and the one that
makes an XS engine out of none is an `XS.INIT` of four words. -/
theorem validFlagsFollowSeedInitAndReset : Obligations.ValidFlagsFollowSeedInitAndReset := by
  intro s t h
  rcases step_next h with ⟨hmt, hxs⟩ | ⟨hreset, hmt, hxs⟩ | ⟨i, hhead, hmt, hxs⟩
  · have hmtValid : t.mtValid = s.mtValid := congrArg Option.isSome hmt
    have hxsValid : t.xsValid = s.xsValid := congrArg Option.isSome hxs
    grind
  · exact ⟨fun _ => hreset, by simp [State.mtValid, hmt], by simp [State.xsValid, hxs]⟩
  · refine ⟨?_, fun hs ht => ?_, fun hs ht => ?_⟩
    · rintro (⟨hs, ht⟩ | ⟨hs, ht⟩)
      · exact absurd ((hmt.keeps_valid hs).symm.trans ht) (by decide)
      · exact absurd ((hxs.keeps_valid hs).symm.trans ht) (by decide)
    · obtain ⟨a, rfl⟩ := hmt.seeds_of_invalid hs ht
      exact ⟨a, hhead⟩
    · obtain ⟨ws, hlen, rfl⟩ := hxs.loads_of_invalid hs ht
      exact ⟨ws, hlen, hhead⟩

/-- A successful command on the MT engine that the array lasts for moves the cursor by its draws and nothing else. -/
theorem exec_moves_cursor {i : Instr} {s : State} {e : MtEngine} (hi : usesMt i = true) (he : s.mt = some e)
    (hok : operandFault i = none) (hlast : e.mti.toNat + drawCount i ≤ 624) :
    ∃ payload : List Byte, exec i s =
      .next { s with mt := some { e with mti := BitVec.ofNat 10 (e.mti.toNat + drawCount i) },
                     responses := s.responses ++ [⟨.ok, payload⟩] } := by
  obtain ⟨payload, hexec⟩ := exec_of_usesMt hi
  refine ⟨payload e, ?_⟩
  rw [hexec, State.mtCommand, State.withMt_some he, State.rangeCheck_passes (by simp [hok]), mtDraws_within _ hlast]
  rfl

/-- Settles O20: the commands of one draw and `MT.BYTES` are commands on the MT engine whose draws the array lasts for. -/
theorem drawsBeforeTheTwistMoveOnlyTheCursor : Obligations.DrawsBeforeTheTwistMoveOnlyTheCursor := by
  intro s e he
  refine ⟨fun i hi hok hlt => ?_, fun len hlast => exec_moves_cursor (i := .mtBytes len) rfl he rfl hlast⟩
  obtain ⟨huses, hone⟩ := usesMt_and_drawCount_of_drawsOnce hi
  obtain ⟨payload, hexec⟩ := exec_moves_cursor huses he (operandFault_of_statusOf_ok hok) (by rw [hone]; exact hlt)
  refine ⟨payload, ?_⟩
  rw [hexec, hone, BitVec.ofNat_add, BitVec.ofNat_toNat, BitVec.setWidth_eq]

/-- Settles O1: the machine's reset state and the step that takes a reset event. -/
theorem resetLeavesNoContent : Obligations.ResetLeavesNoContent :=
  ⟨⟨rfl, rfl, rfl, rfl⟩, fun _ _ h => step_reset h⟩

/-- Settles O22: after reset there is no MT engine. -/
theorem cursorIsInRangeAtReset : Obligations.CursorIsInRangeAtReset :=
  ⟨fun _ he => by simp at he, fun _ he => by simp at he⟩

end Sys2Proof.Machine
end

section
/-! The decoder reads back the frame the encoder wrote (30_encoding.md R71). -/

namespace Sys2Proof

/-- The decoder undoes the encoder, format by format. -/
theorem decode_encode (i : Instr) : decode (encode i) = .ok i := by
  cases i with
  | mtWord | mtInt | mtF64 | mtU64c | mtRdseed | mtRdmti | xsWord | rdstat => rfl
  | mtSeed a | mtWordb a | mtIntb a | mtBytes a | mtRdst a | xsRdst a => exact decodeA_eq_ok.mpr ⟨a, rfl, rfl⟩
  | mtWordr a b | mtIntr a b => exact decodeAB_eq_ok.mpr ⟨a, b, rfl, rfl⟩
  | xsInit ws => exact decodeV_eq_ok.mpr ⟨ws, rfl, rfl⟩

end Sys2Proof
end

section
/-! The statements about the ports and the order of commands (20_memory.md). -/

namespace Sys2Proof.Machine

/-! ### The step is total (R50) -/

theorem exec_answers (i : Instr) (s : State) : ∃ t, exec i s = .next t := by
  obtain ⟨_, _, _, -, -, hexec⟩ := exec_acts i s.mt s.xs
  exact ⟨_, hexec s rfl rfl⟩

/-- Settles O3: an idle step, a reset and an illegal frame answer at once, and every command answers. -/
theorem stepAlwaysAnswersANextState : Obligations.StepAlwaysAnswersANextState := by
  intro s
  cases hp : s.pending with
  | nil => exact ⟨s, step_idle hp⟩
  | cons ev rest =>
    cases ev with
    | reset => exact ⟨_, step_reset hp⟩
    | command f =>
      cases hf : decode f with
      | error x => exact ⟨_, step_illegal hp hf⟩
      | ok i => rw [step_command hp hf]; exact exec_answers i _

/-! ### Commands at the port (R49) -/

/-- A command neither reads nor writes the frames still to be presented. -/
theorem exec_with_pending {i : Instr} {s t : State} (h : exec i s = .next t) (p : List HostEvent) :
    exec i { s with pending := p } = .next { t with pending := p } := by
  obtain ⟨_, _, _, -, -, hexec⟩ := exec_acts i s.mt s.xs
  obtain rfl : _ = t := Host.Outcome.next.inj ((hexec s rfl rfl).symm.trans h)
  exact hexec { s with pending := p } rfl rfl

/-- Writing back the host's acts that are there changes nothing. -/
theorem State.with_pending_self {s : State} {p : List HostEvent} (h : s.pending = p) : { s with pending := p } = s := by
  subst h; rfl

theorem run_succ_of_step {s t : State} (h : step s = .next t) (k : Nat) :
    Host.Core.run Sys2Proof.core (k + 1) s = Host.Core.run Sys2Proof.core k t := by
  simp [Host.Core.run, Sys2Proof.core, h]

theorem execAll_cons_of_exec {i : Instr} {s t : State} (h : exec i s = .next t) (is : List Instr) :
    execAll (i :: is) s = execAll is t := by
  simp [execAll, h]

/-- Settles O5, by induction on the commands: the first frame is taken off the port and decodes to its command, whose
execution leaves the other frames where they are. -/
theorem portRunIsTheLeftFoldOfCommands : Obligations.PortRunIsTheLeftFoldOfCommands := by
  intro is
  induction is with
  | nil =>
    intro s hp
    exact congrArg Host.Outcome.next (State.with_pending_self hp).symm
  | cons i is ih =>
    intro s hp
    have hstep := step_command hp (decode_encode i)
    obtain ⟨t, ht⟩ := exec_answers i { s with pending := is.map fun j => .command (encode j) }
    obtain ⟨-, -, htp, -⟩ := exec_next ht
    have hrun := (run_succ_of_step (hstep.trans ht) is.length).trans (ih t htp)
    exact hrun.trans (execAll_cons_of_exec (exec_with_pending ht []) is).symm

/-! ### Inspection (R46) -/

/-- The answer `a` in the state `s` appends one response and writes nothing else. -/
def State.OnlyResponds (s : State) (a : Answer) : Prop := ∃ st payload, a = .next (s.respond st payload)

theorem State.onlyResponds_raise (s : State) (e : Status) : s.OnlyResponds (s.raise e) := ⟨e, [], rfl⟩

theorem State.onlyResponds_answer (s : State) (payload : List Byte) : s.OnlyResponds (s.answer payload) :=
  ⟨.ok, payload, rfl⟩

theorem State.onlyResponds_withMt {s : State} {k : MtEngine → Answer} (h : ∀ e, s.OnlyResponds (k e)) :
    s.OnlyResponds (s.withMt k) := by
  cases hm : s.mt with
  | none => exact ⟨_, _, State.withMt_none hm k⟩
  | some e => rw [State.withMt_some hm]; exact h e

theorem State.onlyResponds_withXs {s : State} {k : Vector U64 4 → Answer} (h : ∀ v, s.OnlyResponds (k v)) :
    s.OnlyResponds (s.withXs k) := by
  cases hx : s.xs with
  | none => exact ⟨_, _, State.withXs_none hx k⟩
  | some v => rw [State.withXs_some hx]; exact h v

theorem State.onlyResponds_rangeCheck {s : State} {c : Prop} [Decidable c] {k : Answer} (h : s.OnlyResponds k) :
    s.OnlyResponds (s.rangeCheck c k) := by
  by_cases hc : c
  · exact ⟨_, _, State.rangeCheck_fails hc k⟩
  · rwa [State.rangeCheck_passes hc]

/-- Each inspection command makes its tests and answers from the state it keeps. -/
theorem onlyResponds_of_isInspection {i : Instr} (h : isInspection i = true) (s : State) : s.OnlyResponds (exec i s) := by
  cases i with
  | mtRdseed | mtRdmti => exact State.onlyResponds_withMt fun _ => s.onlyResponds_answer _
  | mtRdst k => exact State.onlyResponds_withMt fun _ => State.onlyResponds_rangeCheck (s.onlyResponds_answer _)
  | xsRdst k =>
    refine State.onlyResponds_withXs fun v => ?_
    split
    · exact s.onlyResponds_answer _
    · exact s.onlyResponds_raise _
  | rdstat => exact s.onlyResponds_answer _
  | _ => cases h

/-- A command that only responds gives the same response when issued again, since the engines decide it (R29). -/
theorem exec_repeats {i : Instr} {s : State} {st : Status} {payload : List Byte}
    (h : exec i s = .next (s.respond st payload)) :
    exec i (s.respond st payload) = .next ((s.respond st payload).respond st payload) := by
  obtain ⟨m, x, r, hfirst, hagain⟩ := onlyTheEnginesDecideTheResponse i s (s.respond st payload) rfl rfl
  have hsame := Host.Outcome.next.inj (hfirst.symm.trans h)
  obtain rfl : m = s.mt := congrArg State.mt hsame
  obtain rfl : x = s.xs := congrArg State.xs hsame
  obtain rfl : r = ⟨st, payload⟩ := by simpa using congrArg State.responses hsame
  exact hagain

/-- Settles O19: an inspection command only responds, and a command that only responds repeats its response. -/
theorem inspectionHasNoSideEffect : Obligations.InspectionHasNoSideEffect := by
  intro i s hi
  obtain ⟨st, payload, h⟩ := onlyResponds_of_isInspection hi s
  refine ⟨⟨st, payload⟩, h, (exec_repeats h).trans ?_⟩
  simp [State.respond]

end Sys2Proof.Machine
end

section
/-! Which frames the decoder accepts: those that R69 calls legal (30_encoding.md R61 to R64, R68, R69). -/

namespace Sys2Proof

/-! ### Operand bytes of a fitting length are the bytes of words (R62 to R64) -/

theorem exists_le32_of_length {bs : List Byte} (h : bs.length = 4) : ∃ a : U32, bs = le32 a := by
  obtain ⟨b0, b1, b2, b3, rfl⟩ := List.length_eq_four.mp h
  exact ⟨word32 b0 b1 b2 b3, (le32_word32 b0 b1 b2 b3).symm⟩

theorem exists_le32_append_le32_of_length {bs : List Byte} (h : bs.length = 8) : ∃ a b : U32, bs = le32 a ++ le32 b := by
  obtain ⟨a, ha⟩ := exists_le32_of_length (bs := bs.take 4) (by simp [h])
  obtain ⟨b, hb⟩ := exists_le32_of_length (bs := bs.drop 4) (by simp [h])
  exact ⟨a, b, by rw [← ha, ← hb, List.take_append_drop]⟩

theorem exists_le64_of_length {bs : List Byte} (h : bs.length = 8) : ∃ w : U64, bs = le64 w :=
  match bs, h with
  | [b0, b1, b2, b3, b4, b5, b6, b7], _ =>
    ⟨word64 b0 b1 b2 b3 b4 b5 b6 b7, (le64_word64 b0 b1 b2 b3 b4 b5 b6 b7).symm⟩

theorem exists_flatMap_le64_of_length {n : Nat} {bs : List Byte} (h : bs.length = 8 * n) :
    ∃ ws : List U64, bs = ws.flatMap le64 := by
  induction n generalizing bs with
  | zero => exact ⟨[], List.eq_nil_of_length_eq_zero h⟩
  | succ n ih =>
    obtain ⟨w, hw⟩ := exists_le64_of_length (bs := bs.take 8) (by rw [List.length_take]; omega)
    obtain ⟨ws, hws⟩ := ih (bs := bs.drop 8) (by rw [List.length_drop]; omega)
    exact ⟨w :: ws, by rw [List.flatMap_cons, ← hw, ← hws, List.take_append_drop]⟩

/-! ### Each format's decoder accepts every operand byte string of a length that fits -/

theorem decodeZ_of_fits {ops : List Byte} (i : Instr) (h : Format.z.fits (ops.length + 1) = true) :
    ∃ x, decodeZ i ops = .ok x :=
  ⟨i, decodeZ_eq_ok.mpr ⟨by simpa [Format.fits] using h, rfl⟩⟩

theorem decodeA_of_fits {ops : List Byte} (i : U32 → Instr) (h : Format.a.fits (ops.length + 1) = true) :
    ∃ x, decodeA i ops = .ok x := by
  obtain ⟨a, hops⟩ := exists_le32_of_length (bs := ops) (by simpa [Format.fits] using h)
  exact ⟨i a, decodeA_eq_ok.mpr ⟨a, hops, rfl⟩⟩

theorem decodeAB_of_fits {ops : List Byte} (i : U32 → U32 → Instr) (h : Format.ab.fits (ops.length + 1) = true) :
    ∃ x, decodeAB i ops = .ok x := by
  obtain ⟨a, b, hops⟩ := exists_le32_append_le32_of_length (bs := ops) (by simpa [Format.fits] using h)
  exact ⟨i a b, decodeAB_eq_ok.mpr ⟨a, b, hops, rfl⟩⟩

theorem decodeV_of_fits {ops : List Byte} (i : List U64 → Instr) (h : Format.v.fits (ops.length + 1) = true) :
    ∃ x, decodeV i ops = .ok x := by
  have hmod : ops.length % 8 = 0 := by simpa [Format.fits] using h
  obtain ⟨ws, hops⟩ := exists_flatMap_le64_of_length (bs := ops) (n := ops.length / 8) (by omega)
  exact ⟨i ws, decodeV_eq_ok.mpr ⟨ws, hops, rfl⟩⟩

/-! ### Legal frames -/

/-- The opcodes of a format, as `formatOf` has them (R61 to R64). -/
def Format.opcodes (fmt : Format) : List Byte :=
  match fmt with
  | .z => [0x11#8, 0x14#8, 0x18#8, 0x19#8, 0x1A#8, 0x1B#8, 0x21#8, 0x30#8]
  | .a => [0x10#8, 0x12#8, 0x15#8, 0x17#8, 0x1C#8, 0x22#8]
  | .ab => [0x13#8, 0x16#8]
  | .v => [0x20#8]

theorem mem_opcodes_of_formatOf {opcode : Byte} {fmt : Format} (h : formatOf opcode = some fmt) : opcode ∈ fmt.opcodes := by
  unfold formatOf at h
  split_ifs at h <;> cases h <;> assumption

/-- A legal frame is an assigned opcode and operand bytes of a length its format allows (R69). -/
theorem eq_cons_of_frameLegal {f : Frame} (h : frameLegal f = true) :
    ∃ (opcode : Byte) (ops : List Byte) (fmt : Format), f = opcode :: ops ∧ opcode ∈ fmt.opcodes ∧
      fmt.fits (ops.length + 1) = true := by
  cases f with
  | nil => cases h
  | cons opcode ops =>
    cases hfmt : formatOf opcode with
    | none => simp [frameLegal, hfmt] at h
    | some fmt => exact ⟨opcode, ops, fmt, rfl, mem_opcodes_of_formatOf hfmt, by simpa [frameLegal, hfmt] using h⟩

/-- A legal frame decodes: the opcode map sends each opcode of a format to that format's decoder (R68). -/
theorem exists_decode_of_frameLegal {f : Frame} (h : frameLegal f = true) : ∃ i, decode f = .ok i := by
  obtain ⟨opcode, ops, fmt, rfl, hmem, hfits⟩ := eq_cons_of_frameLegal h
  cases fmt <;> simp only [Format.opcodes, List.mem_cons, List.not_mem_nil, or_false] at hmem
  case z =>
    rcases hmem with rfl | rfl | rfl | rfl | rfl | rfl | rfl | rfl <;> exact decodeZ_of_fits _ hfits
  case a =>
    rcases hmem with rfl | rfl | rfl | rfl | rfl | rfl <;> exact decodeA_of_fits _ hfits
  case ab =>
    rcases hmem with rfl | rfl <;> exact decodeAB_of_fits _ hfits
  case v =>
    obtain rfl := hmem
    exact decodeV_of_fits _ hfits

/-- The encoder writes legal frames only. -/
theorem frameLegal_encode (i : Instr) : frameLegal (encode i) = true := by
  cases i with
  | xsInit ws => exact Laws.EncodedLegal.xsInit ws
  | _ => rfl

theorem frameLegal_iff_decodes (f : Frame) : frameLegal f = true ↔ ∃ i, decode f = .ok i := by
  constructor
  · exact exists_decode_of_frameLegal
  · rintro ⟨i, hi⟩
    rw [eq_encode_of_decode hi]
    exact frameLegal_encode i

end Sys2Proof
end

section
/-! The response to a command: its status by R181 and R188, and the length of its payload by R66 and R67. -/

namespace Sys2Proof.Machine

/-- The answer `a` appends one response of status `st` to those of `s` and leaves the host's acts; its payload has `n` bytes
if the status is `OK` and none otherwise (R66). -/
def State.RespondsWith (s : State) (a : Answer) (st : Status) (n : Nat) : Prop :=
  ∃ (t : State) (payload : List Byte), a = .next t ∧ t.pending = s.pending ∧
    t.responses = s.responses ++ [⟨st, payload⟩] ∧ payload.length = if st = .ok then n else 0

theorem State.respondsWith_raise (s : State) {e : Status} (he : e ≠ .ok) (n : Nat) : s.RespondsWith (s.raise e) e n :=
  ⟨_, [], rfl, rfl, rfl, (if_neg he).symm⟩

/-- A success, in a state whose engines alone may differ from those of `s`. -/
theorem State.respondsWith_answer {s t : State} {payload : List Byte} {n : Nat} (hpending : t.pending = s.pending)
    (hresponses : t.responses = s.responses) (hlen : payload.length = n) : s.RespondsWith (t.answer payload) .ok n :=
  ⟨_, payload, rfl, hpending, by rw [← hresponses]; rfl, hlen⟩

/-- The range test, with its condition as `operandFault` writes it. -/
theorem State.respondsWith_rangeCheck {s : State} {c d : Prop} [Decidable c] [Decidable d] {k : Answer} {n : Nat}
    (hcd : c ↔ d) (hk : s.RespondsWith k .ok n) :
    s.RespondsWith (s.rangeCheck c k) ((if d then some Status.errRange else none).getD .ok) n := by
  rw [State.rangeCheck_congr hcd]
  by_cases hd : d
  · rw [State.rangeCheck_fails hd, if_pos hd]
    exact s.respondsWith_raise (by decide) n
  · rw [State.rangeCheck_passes hd, if_neg hd]
    exact hk

/-- No command uses both engines (R30). -/
theorem usesMt_eq_false_of_usesXs {i : Instr} (h : usesXs i = true) : usesMt i = false := by
  cases i with
  | xsWord | xsRdst => rfl
  | _ => cases h

/-- A command on the MT engine: the valid flag decides first, then the operands (R188). -/
theorem State.respondsWith_withMt {s : State} {i : Instr} {k : MtEngine → Answer} {n : Nat} (hi : usesMt i = true)
    (hk : ∀ e, s.RespondsWith (k e) ((operandFault i).getD .ok) n) : s.RespondsWith (s.withMt k) (statusOf i s) n := by
  cases hm : s.mt with
  | none =>
    have hst : statusOf i s = .errNotInit := by simp [statusOf, hi, State.mtValid, hm]
    rw [State.withMt_none hm, hst]
    exact s.respondsWith_raise (by decide) n
  | some e =>
    have hxs : usesXs i = false :=
      Bool.eq_false_iff.mpr fun hx => by simp [usesMt_eq_false_of_usesXs hx] at hi
    have hst : statusOf i s = (operandFault i).getD .ok := by simp [statusOf, State.mtValid, hm, hxs]
    rw [State.withMt_some hm, hst]
    exact hk e

/-- A command on the XS engine: the valid flag decides first, then the operands (R188). -/
theorem State.respondsWith_withXs {s : State} {i : Instr} {k : Vector U64 4 → Answer} {n : Nat} (hi : usesXs i = true)
    (hk : ∀ v, s.RespondsWith (k v) ((operandFault i).getD .ok) n) : s.RespondsWith (s.withXs k) (statusOf i s) n := by
  have hmt := usesMt_eq_false_of_usesXs hi
  cases hx : s.xs with
  | none =>
    have hst : statusOf i s = .errNotInit := by simp [statusOf, hi, hmt, State.xsValid, hx]
    rw [State.withXs_none hx, hst]
    exact s.respondsWith_raise (by decide) n
  | some v =>
    have hst : statusOf i s = (operandFault i).getD .ok := by simp [statusOf, hmt, State.xsValid, hx]
    rw [State.withXs_some hx, hst]
    exact hk v

/-- Every command responds once, with the status of R188 and a payload of the length of R67. -/
theorem exec_respondsWith (i : Instr) (s : State) : s.RespondsWith (exec i s) (statusOf i s) (payloadLength i) := by
  cases i with
  | mtSeed | rdstat => exact State.respondsWith_answer rfl rfl rfl
  | mtWord | mtInt | mtF64 | mtU64c | mtRdseed | mtRdmti =>
    exact State.respondsWith_withMt rfl fun _ => State.respondsWith_answer rfl rfl rfl
  | mtWordb max =>
    exact State.respondsWith_withMt rfl fun _ =>
      State.respondsWith_rangeCheck BitVec.toNat_eq (State.respondsWith_answer rfl rfl rfl)
  | mtWordr | mtIntb | mtRdst =>
    exact State.respondsWith_withMt rfl fun _ =>
      State.respondsWith_rangeCheck Iff.rfl (State.respondsWith_answer rfl rfl rfl)
  | mtIntr min max =>
    refine State.respondsWith_withMt rfl fun _ => ?_
    rw [State.rangeCheck_rangeCheck]
    exact State.respondsWith_rangeCheck Iff.rfl (State.respondsWith_answer rfl rfl rfl)
  | mtBytes len =>
    exact State.respondsWith_withMt rfl fun e =>
      State.respondsWith_answer rfl rfl (by rw [List.length_map, mtDraws_length]; rfl)
  | xsInit ws =>
    rcases exec_xsInit ws with ⟨v, hlen, hexec⟩ | ⟨hlen, hexec⟩
    · have hst : statusOf (.xsInit ws) s = .ok := by simp [statusOf, usesMt, usesXs, operandFault, hlen]
      rw [hexec, hst]
      exact State.respondsWith_answer rfl rfl rfl
    · have hst : statusOf (.xsInit ws) s = .errInvalidState := by simp [statusOf, usesMt, usesXs, operandFault, hlen]
      rw [hexec, hst]
      exact s.respondsWith_raise (by decide) _
  | xsWord => exact State.respondsWith_withXs rfl fun _ => State.respondsWith_answer rfl rfl rfl
  | xsRdst k =>
    refine State.respondsWith_withXs rfl fun v => ?_
    by_cases hk : k.toNat < 4
    · simp only [dif_pos hk, operandFault, if_neg (Nat.not_le.mpr hk)]
      exact State.respondsWith_answer rfl rfl rfl
    · simp only [dif_neg hk, operandFault, if_pos (Nat.not_lt.mp hk)]
      exact s.respondsWith_raise (by decide) _

end Sys2Proof.Machine
end

section
/-! The statements about the encoding (30_encoding.md). -/

namespace Sys2Proof.Machine

/-- Settles O7: the decoder undoes the encoder. -/
theorem decodingAnEncodedCommandGivesItBack : Obligations.DecodingAnEncodedCommandGivesItBack :=
  fun i _ => decode_encode i

/-- Settles O8: each opcode's format accepts exactly the operand bytes that the encoder writes. -/
theorem aDecodableFrameIsTheEncoding : Obligations.ADecodableFrameIsTheEncoding :=
  fun _ _ h => eq_encode_of_decode h

/-- Settles O9: the decoder accepts the legal frames, and a frame it refuses is answered without a look at the state. -/
theorem exactlyTheLegalFramesDecode : Obligations.ExactlyTheLegalFramesDecode := by
  refine ⟨frameLegal_iff_decodes, fun s f rest hp hillegal => ?_⟩
  cases hf : decode f with
  | error x => exact step_illegal hp hf
  | ok i =>
    have hlegal := (frameLegal_iff_decodes f).mpr ⟨i, hf⟩
    exact absurd (hlegal.symm.trans hillegal) (by decide)

/-- Settles O4: an illegal frame is answered with its status alone, and a command that decodes responds by R67. -/
theorem oneResponseFramePerCommandFrame : Obligations.OneResponseFramePerCommandFrame := by
  intro s f rest hp
  cases hf : decode f with
  | error x => exact ⟨_, ⟨.errIllegal, []⟩, step_illegal hp hf, rfl, rfl, rfl, fun _ => rfl, nofun⟩
  | ok i =>
    obtain ⟨t, payload, hexec, hpending, hresponses, hlen⟩ := exec_respondsWith i { s with pending := rest }
    refine ⟨t, _, (step_command hp hf).trans hexec, hpending, hresponses, rfl, fun hst => ?_, fun hst => ?_⟩
    · obtain rfl : payload = [] := List.eq_nil_of_length_eq_zero (hlen.trans (if_neg hst))
      rfl
    · exact ⟨i, rfl, hlen.trans (if_pos hst)⟩

/-- Settles O14: the response of a command whose status is `OK`. -/
theorem payloadLengthsAreTheTables : Obligations.PayloadLengthsAreTheTables := by
  intro i s hok
  obtain ⟨t, payload, hexec, -, hresponses, hlen⟩ := exec_respondsWith i s
  rw [hok] at hresponses hlen
  exact ⟨t, payload, hexec, hresponses, hlen⟩

/-- Settles O10: six of the frames are what the encoder writes for their commands, and the last has one byte too many. -/
theorem writtenOutFramesDecode : Obligations.WrittenOutFramesDecode :=
  ⟨decode_encode (.mtSeed 4357#32), decode_encode (.mtWordr 10#32 20#32), decode_encode (.mtIntr 0xFFFFFFF6#32 10#32),
    decode_encode (.xsInit []), decode_encode (.xsRdst 3#32), decode_encode .rdstat, rfl⟩

end Sys2Proof.Machine
end

section
/-! The functions of the MT engine, word by word: the fill (40_mt_core.md R91), the twist (R92, R93) and tempering (R94). -/

namespace Sys2Proof.Machine

/-! ### The fill (R91) -/

theorem fillFrom_getElem? (n i : Nat) (w : U32) :
    (fillFrom n w)[i]? = if i < n then some (Config.seedMult ^ i * w) else none := by
  induction n generalizing i w with
  | zero => simp [fillFrom]
  | succ n ih =>
    cases i with
    | zero => simp [fillFrom]
    | succ i => simp [fillFrom, ih, BitVec.pow_succ, BitVec.mul_assoc]

theorem mtFill_word (a : U32) {i : Nat} (h : i < 624) : (mtFill a).word i = Config.seedMult ^ i * a := by
  simp [MtArray.word, mtFill, fillFrom_getElem?, h]

theorem mtFill_word_succ (a : U32) {i : Nat} (h : i < 623) :
    (mtFill a).word (i + 1) = Config.seedMult * (mtFill a).word i := by
  rw [mtFill_word a (by omega), mtFill_word a (by omega), BitVec.pow_succ, BitVec.mul_comm (_ ^ i), BitVec.mul_assoc]

theorem fillFrom_of_fixed {w : U32} (h : Config.seedMult * w = w) (n : Nat) : fillFrom n w = List.replicate n w := by
  induction n with
  | zero => rfl
  | succ n ih => rw [fillFrom, h, ih, List.replicate_succ]

/-- A seed that the recurrence maps to itself fills the array with copies of it (R99). -/
theorem mtFill_words_of_fixed {a : U32} (h : Config.seedMult * a = a) : (mtFill a).words = List.replicate 624 a :=
  fillFrom_of_fixed h 624

/-! ### The runs of the twist (R93) -/

theorem twistRun_nil (cs : List U32) : twistRun cs [] = [] := by cases cs <;> rfl

theorem twistRun_getD {cs ws : List U32} {j : Nat} (hc : j < cs.length) (hw : j + 1 < ws.length) :
    (twistRun cs ws).getD j 0#32 = twistWord (ws.getD j 0#32) (ws.getD (j + 1) 0#32) (cs.getD j 0#32) := by
  rw [List.getD, twistRun_getElem?, if_pos ⟨hc, hw⟩, Option.getD_some]

/-- A run over two lists in a row is two runs in a row. -/
theorem twistRun_append (cs ds ws : List U32) :
    twistRun (cs ++ ds) ws = twistRun cs ws ++ twistRun ds (ws.drop cs.length) := by
  induction cs generalizing ws with
  | nil => rfl
  | cons c cs ih =>
    match ws with
    | [] => simp [twistRun]
    | [_] => simp [twistRun]
    | a :: b :: rest => simp [twistRun, ih]

/-- Words 0 to 226 of a twist, which read old words alone. -/
def firstRun (old : List U32) : List U32 := twistRun (old.drop 397) old

/-- Words 227 to 453 of a twist, which read the first run. -/
def secondRun (old : List U32) : List U32 := twistRun (firstRun old) (old.drop 227)

/-- Words 454 to 622 of a twist, which read the second run. -/
def thirdRun (old : List U32) : List U32 := twistRun (secondRun old) (old.drop 454)

/-- Word 623 of a twist, which reads the new words 0 and 396. -/
def lastWord (old : List U32) : U32 :=
  twistWord (old.getD 623 0#32) ((firstRun old).getD 0 0#32) ((secondRun old).getD 169 0#32)

theorem twistWords_eq (old : List U32) :
    twistWords old = firstRun old ++ (secondRun old ++ (thirdRun old ++ [lastWord old])) := by
  simp [twistWords, firstRun, secondRun, thirdRun, lastWord]

section
variable {old : List U32} (h : old.length = 624)
include h

theorem firstRun_length : (firstRun old).length = 227 := by simp [firstRun, twistRun_length, h]

theorem secondRun_length : (secondRun old).length = 227 := by simp [secondRun, twistRun_length, firstRun_length h, h]

theorem thirdRun_length : (thirdRun old).length = 169 := by simp [thirdRun, twistRun_length, secondRun_length h, h]

/-- The three runs are one run of 623 steps, which reads the old words from 397 on and then the new words themselves. -/
theorem twistRun_twistWords :
    twistRun (old.drop 397 ++ twistWords old) old = firstRun old ++ (secondRun old ++ thirdRun old) := by
  have hend : old.drop 681 = [] := List.drop_of_length_le (by omega)
  rw [twistWords_eq, twistRun_append, twistRun_append, twistRun_append, List.length_drop, h, firstRun_length h,
    secondRun_length h, List.drop_drop, List.drop_drop, hend, twistRun_nil, List.append_nil]
  rfl

theorem lastWord_eq :
    lastWord old = twistWord (old.getD 623 0#32) ((twistWords old).getD 0 0#32) ((twistWords old).getD 396 0#32) := by
  have h0 := firstRun_length h
  have h1 := secondRun_length h
  rw [twistWords_eq, List.getD_append _ _ _ _ (by omega), List.getD_append_right _ _ _ _ (by omega), h0,
    List.getD_append _ _ _ _ (by omega), lastWord]

end

/-! ### The words of the twisted array (R93) -/

theorem twistArray_words (a : MtArray) : (twistArray a).words = twistWords a.words := rfl

theorem getD_drop (l : List U32) (m j : Nat) : (l.drop m).getD j 0#32 = l.getD (m + j) 0#32 := by
  simp [List.getD]

/-- Every word of a twist but the last. -/
theorem twistArray_word (a : MtArray) {k : Nat} (hk : k < 623) : (twistArray a).word k =
    twistWord (a.word k) (a.word (k + 1)) ((a.words.drop 397 ++ (twistArray a).words).getD k 0#32) := by
  have hsize := a.size
  have hsize' := (twistArray a).size
  have hruns : (twistArray a).words =
      twistRun (a.words.drop 397 ++ (twistArray a).words) a.words ++ [lastWord a.words] := by
    rw [twistArray_words, twistRun_twistWords hsize, twistWords_eq, List.append_assoc, List.append_assoc]
  have hlen : k < (twistRun (a.words.drop 397 ++ (twistArray a).words) a.words).length := by
    rw [twistRun_length, List.length_append, List.length_drop, hsize, hsize']
    omega
  rw [MtArray.word, hruns, List.getD_append _ _ _ _ hlen, ← hruns,
    twistRun_getD (by simp [hsize, hsize']; omega) (by omega), MtArray.word, MtArray.word]

/-- Words 0 to 226: old words alone. -/
theorem twistArray_word_of_lt (a : MtArray) {k : Nat} (hk : k < 227) :
    (twistArray a).word k = twistWord (a.word k) (a.word (k + 1)) (a.word (k + 397)) := by
  rw [twistArray_word a (by omega), List.getD_append _ _ _ _ (by simp [a.size, hk]), getD_drop, Nat.add_comm 397]
  rfl

/-- Words 227 to 622: old words, and the new word 227 places below. -/
theorem twistArray_word_of_ge (a : MtArray) {k : Nat} (hlo : 227 ≤ k) (hhi : k < 623) :
    (twistArray a).word k = twistWord (a.word k) (a.word (k + 1)) ((twistArray a).word (k - 227)) := by
  rw [twistArray_word a hhi, List.getD_append_right _ _ _ _ (by simp [a.size, hlo]), List.length_drop, a.size]
  rfl

/-- Word 623: old word 623 and the new words 0 and 396. -/
theorem twistArray_word_last (a : MtArray) :
    (twistArray a).word 623 = twistWord (a.word 623) ((twistArray a).word 0) ((twistArray a).word 396) := by
  have hlast : (twistArray a).word 623 = lastWord a.words := by
    simp [MtArray.word, twistArray_words, twistWords_eq, firstRun_length, secondRun_length, thirdRun_length, a.size]
  rw [hlast, lastWord_eq a.size]
  rfl

theorem and_one_eq_one_iff (y : U32) : y &&& 1#32 = 1#32 ↔ y.getLsbD 0 = true := by
  rw [BitVec.and_one_eq_setWidth_ofBool_getLsbD]
  cases y.getLsbD 0 <;> decide

theorem twistsTo_twistWord (a b c : U32) : TwistsTo a b c (twistWord a b c) := by
  simp only [TwistsTo, twistWord, and_one_eq_one_iff]

/-! ### The loop (R92) -/

/-- The words after the first `k` steps of the loop: new below `k`, old from `k` on. -/
def partlyTwisted (a : MtArray) (k : Nat) : List U32 := (twistArray a).words.take k ++ a.words.drop k

theorem partlyTwisted_getD (a : MtArray) {i k : Nat} (hk : k ≤ 624) :
    (partlyTwisted a k).getD i 0#32 = if i < k then (twistArray a).word i else a.word i := by
  have hsize := (twistArray a).size
  have htake : ((twistArray a).words.take k).length = k := List.length_take_of_le (by omega)
  by_cases hi : i < k
  · rw [partlyTwisted, List.getD_append _ _ _ _ (by omega), if_pos hi]
    simp [hi, MtArray.word]
  · rw [partlyTwisted, List.getD_append_right _ _ _ _ (by omega), if_neg hi, getD_drop, htake,
      Nat.add_sub_of_le (by omega)]
    rfl

theorem loopStep_eq (mt : List U32) (k : Nat) : loopStep mt k =
    mt.set k (twistWord (mt.getD k 0#32) (mt.getD ((k + 1) % 624) 0#32) (mt.getD ((k + 397) % 624) 0#32)) := rfl

/-- What step `k` of the loop reads makes the new word `k`: indices wrap to words that are new by then. -/
theorem twistWord_partlyTwisted (a : MtArray) {k : Nat} (hk : k < 624) :
    twistWord ((partlyTwisted a k).getD k 0#32) ((partlyTwisted a k).getD ((k + 1) % 624) 0#32)
      ((partlyTwisted a k).getD ((k + 397) % 624) 0#32) = (twistArray a).word k := by
  simp only [partlyTwisted_getD a (Nat.le_of_lt hk), Nat.lt_irrefl, if_false]
  rcases Nat.lt_or_ge k 227 with hlo | hlo
  · rw [twistArray_word_of_lt a hlo, if_neg (by omega), if_neg (by omega), Nat.mod_eq_of_lt (by omega),
      Nat.mod_eq_of_lt (by omega)]
  · rw [if_pos (by omega : (k + 397) % 624 < k), show (k + 397) % 624 = k - 227 by omega]
    rcases Nat.lt_or_eq_of_le (Nat.le_of_lt_succ hk) with hhi | rfl
    · rw [if_neg (by omega), Nat.mod_eq_of_lt (by omega), twistArray_word_of_ge a hlo hhi]
    · exact (twistArray_word_last a).symm

theorem loopStep_partlyTwisted (a : MtArray) {k : Nat} (hk : k < 624) :
    loopStep (partlyTwisted a k) k = partlyTwisted a (k + 1) := by
  have hsize := a.size
  have hsize' := (twistArray a).size
  rw [loopStep_eq, twistWord_partlyTwisted a hk, partlyTwisted, partlyTwisted, List.set_append_right _ _ (by simp),
    List.length_take_of_le (by omega), Nat.sub_self, List.drop_eq_getElem_cons (by omega), List.set_cons_zero,
    MtArray.word_eq _ hk, List.take_succ_eq_append_getElem (by omega), List.append_assoc]
  rfl

theorem foldl_loopStep (a : MtArray) {k : Nat} (hk : k ≤ 624) :
    (List.range k).foldl loopStep a.words = partlyTwisted a k := by
  induction k with
  | zero => simp [partlyTwisted]
  | succ k ih =>
    rw [List.range_succ, List.foldl_append, ih (by omega)]
    exact loopStep_partlyTwisted a hk

theorem twistLoop_eq (a : MtArray) : twistLoop a.words = (twistArray a).words := by
  have hsize := a.size
  have hsize' := (twistArray a).size
  rw [twistLoop, foldl_loopStep a le_rfl, partlyTwisted, List.drop_of_length_le (by omega),
    List.take_of_length_le (by omega), List.append_nil]

/-! ### The twist of equal words (R99) -/

theorem twistRun_replicate (a c : U32) (m n : Nat) :
    twistRun (List.replicate m c) (List.replicate n a) = List.replicate (min m (n - 1)) (twistWord a a c) := by
  induction m generalizing n with
  | zero => simp [twistRun]
  | succ m ih =>
    match n with
    | 0 => rfl
    | 1 => rfl
    | n + 2 =>
      calc twistRun (List.replicate (m + 1) c) (List.replicate (n + 2) a)
        _ = twistWord a a c :: twistRun (List.replicate m c) (List.replicate (n + 1) a) := rfl
        _ = twistWord a a c :: List.replicate (min m n) (twistWord a a c) := by rw [ih, Nat.add_sub_cancel]
        _ = List.replicate (min (m + 1) (n + 1)) (twistWord a a c) := by
          rw [Nat.add_min_add_right, List.replicate_succ]

theorem twistWords_replicate (a : U32) : twistWords (List.replicate 624 a) =
    List.replicate 227 (twistWord a a a) ++ List.replicate 227 (twistWord a a (twistWord a a a)) ++
      List.replicate 169 (twistWord a a (twistWord a a (twistWord a a a))) ++
      [twistWord a (twistWord a a a) (twistWord a a (twistWord a a a))] := by
  simp only [twistWords, List.drop_replicate, twistRun_replicate, Nat.reduceSub, Nat.min_def, Nat.reduceLeDiff, if_true,
    if_false]
  rw [List.getD_replicate _ (by decide), List.getD_replicate _ (by decide), List.getD_replicate _ (by decide)]

/-- The twist keeps the all-zero array. -/
theorem twistArray_words_of_zero {a : MtArray} (h : a.words = List.replicate 624 0#32) :
    (twistArray a).words = List.replicate 624 0#32 := by
  have hstep : twistWord 0#32 0#32 0#32 = 0#32 := by decide
  rw [twistArray_words, h, twistWords_replicate, hstep, hstep, hstep, ← List.replicate_one]
  simp only [List.replicate_append_replicate]

theorem twistArray_words_of_top : (twistArray (mtFill 0x80000000#32)).words =
    List.replicate 227 0xC0000000#32 ++ List.replicate 227 0x80000000#32 ++ List.replicate 169 0xC0000000#32 ++
      [0xE0000000#32] := by
  have hodd : twistWord 0x80000000#32 0x80000000#32 0x80000000#32 = 0xC0000000#32 := by decide
  have heven : twistWord 0x80000000#32 0x80000000#32 0xC0000000#32 = 0x80000000#32 := by decide
  have hlast : twistWord 0x80000000#32 0xC0000000#32 0x80000000#32 = 0xE0000000#32 := by decide
  rw [twistArray_words, mtFill_words_of_fixed (by decide), twistWords_replicate, hodd, heven, hodd, hlast]

/-! ### Tempering (R94) -/

/-- A step of the tempering, `y ^^^ f y`, is injective when `f` keeps differences and zero is its only fixed word. -/
theorem xor_step_injective {f : U32 → U32} (hf : ∀ x y, f (x ^^^ y) = f x ^^^ f y) (hfix : ∀ d, d = f d → d = 0#32) :
    Function.Injective fun y => y ^^^ f y := by
  intro x y hxy
  have hd : x ^^^ y = f (x ^^^ y) := by
    rw [hf, ← BitVec.xor_eq_zero_iff]
    calc x ^^^ y ^^^ (f x ^^^ f y) = (x ^^^ f x) ^^^ (y ^^^ f y) := by ac_rfl
      _ = 0#32 := BitVec.xor_eq_zero_iff.mpr hxy
  exact BitVec.xor_eq_zero_iff.mp (hfix _ hd)

theorem eq_zero_of_eq_ushiftRight {d : U32} {k : Nat} (hk : 0 < k) (h : d = d >>> k) : d = 0#32 := by
  have hdiv : d.toNat = d.toNat / 2 ^ k := by
    simpa [Nat.shiftRight_eq_div_pow] using congrArg BitVec.toNat h
  by_contra hne
  have hpos : 0 < d.toNat := Nat.pos_of_ne_zero fun h0 => hne (BitVec.eq_of_toNat_eq h0)
  exact absurd hdiv (Nat.div_lt_self hpos (Nat.one_lt_two_pow hk.ne')).ne'

/-- A word that is its own masked left shift is zero, from bit 0 upwards. -/
theorem eq_zero_of_eq_shiftLeft_and {d m : U32} {k : Nat} (hk : 0 < k) (h : d = (d <<< k) &&& m) : d = 0#32 := by
  have hbit : ∀ i, d.getLsbD i = false := by
    intro i
    induction i using Nat.strong_induction_on with
    | _ i ih =>
      rw [h, BitVec.getLsbD_and, BitVec.getLsbD_shiftLeft]
      by_cases hi : i < k
      · simp [hi]
      · simp [ih (i - k) (by omega)]
  exact BitVec.eq_of_getLsbD_eq fun i _ => by rw [hbit, BitVec.getLsbD_zero]

theorem xor_ushiftRight_injective {k : Nat} (hk : 0 < k) : Function.Injective fun y : U32 => y ^^^ (y >>> k) :=
  xor_step_injective (fun x y => BitVec.ushiftRight_xor_distrib x y k) fun _ => eq_zero_of_eq_ushiftRight hk

theorem xor_shiftLeft_and_injective {k : Nat} (hk : 0 < k) (m : U32) :
    Function.Injective fun y : U32 => y ^^^ ((y <<< k) &&& m) := by
  refine xor_step_injective (fun x y => ?_) fun _ => eq_zero_of_eq_shiftLeft_and hk
  rw [BitVec.shiftLeft_xor_distrib]
  ext i
  simp [Bool.and_xor_distrib_right]

/-- Tempering is four steps, each of them injective. -/
theorem temper_injective : Function.Injective temper :=
  (xor_ushiftRight_injective (k := 18) (by decide)).comp <|
    (xor_shiftLeft_and_injective (k := 15) (by decide) Config.temperC).comp <|
      (xor_shiftLeft_and_injective (k := 7) (by decide) Config.temperB).comp <|
        xor_ushiftRight_injective (k := 11) (by decide)

end Sys2Proof.Machine
end

section
/-! Draws in a row (40_mt_core.md R95, R98, R99), and the commands that make them (R96, 41_mt_adapters.md R117). -/

namespace Sys2Proof.Machine

/-! ### The engine after draws (R98) -/

/-- A draw from a cursor up to 624 twists once at 624 and not below (R95). -/
theorem mtDraw_snd {e : MtEngine} (h : e.mti.toNat ≤ 624) : (mtDraw e).2 =
    { e with mt := twistTimes (e.mti.toNat / 624) e.mt, mti := BitVec.ofNat 10 (e.mti.toNat % 624 + 1) } := by
  rcases Nat.lt_or_eq_of_le h with hlt | heq
  · rw [mtDraw_of_lt hlt, Nat.div_eq_of_lt hlt, Nat.mod_eq_of_lt hlt, BitVec.ofNat_add, BitVec.ofNat_toNat,
      BitVec.setWidth_eq]
    rfl
  · rw [mtDraw_of_ge heq.ge, heq]
    rfl

/-- The cadence of the twist, by induction on the draws: the first draw's twists and the others' add up. -/
theorem mtDraws_succ_snd (n : Nat) {e : MtEngine} (h : e.mti.toNat ≤ 624) : (mtDraws (n + 1) e).2 =
    { e with mt := twistTimes ((e.mti.toNat + n) / 624) e.mt, mti := BitVec.ofNat 10 ((e.mti.toNat + n) % 624 + 1) } := by
  induction n generalizing e with
  | zero => exact mtDraw_snd h
  | succ n ih =>
    have hcursor : (BitVec.ofNat 10 (e.mti.toNat % 624 + 1)).toNat = e.mti.toNat % 624 + 1 := by
      rw [BitVec.toNat_ofNat]; omega
    have htwists : (e.mti.toNat % 624 + 1 + n) / 624 + e.mti.toNat / 624 = (e.mti.toNat + (n + 1)) / 624 := by omega
    have hmod : (e.mti.toNat % 624 + 1 + n) % 624 = (e.mti.toNat + (n + 1)) % 624 := by omega
    rw [mtDraws_snd_succ, mtDraw_snd h, ih (by simp only [hcursor]; omega)]
    simp only [hcursor, hmod, ← htwists, twistTimes, Function.iterate_add_apply]

/-! ### The words drawn (R95) -/

/-- The words of draws that the array lasts for. -/
theorem mtDraws_fst_within (n : Nat) {e : MtEngine} (h : e.mti.toNat + n ≤ 624) :
    (mtDraws n e).1 = (List.range' e.mti.toNat n).map fun i => temper (e.mt.word i) := by
  induction n generalizing e with
  | zero => rfl
  | succ n ih =>
    have hlt : e.mti.toNat < 624 := by omega
    have hnext := mti_add_one_toNat hlt
    rw [mtDraws_succ, mtDraw_of_lt hlt, ih (by simp only [hnext]; omega), List.range'_succ, List.map_cons, hnext]

/-- From the cursor 624 on, the words drawn are those of the twisted engine. -/
theorem mtDraws_fst_of_ge (n : Nat) {e : MtEngine} (h : 624 ≤ e.mti.toNat) :
    (mtDraws n e).1 = (mtDraws n (mtTwist e)).1 := by
  cases n with
  | zero => rfl
  | succ n =>
    have hdraw : mtDraw e = mtDraw (mtTwist e) := by rw [mtDraw_of_ge h, mtDraw_of_lt (by simp)]; rfl
    rw [mtDraws_succ, mtDraws_succ, hdraw]

/-! ### The degenerate seeds (R99) -/

/-- The all-zero array draws zero and stays all zero, whatever the cursor. -/
theorem mtDraw_of_zero {e : MtEngine} (h : e.mt.words = List.replicate 624 0#32) :
    (mtDraw e).1 = 0#32 ∧ (mtDraw e).2.mt.words = List.replicate 624 0#32 := by
  have htemper : temper 0#32 = 0#32 := by decide
  have hword : ∀ {a : MtArray} (i : Nat), a.words = List.replicate 624 0#32 → temper (a.word i) = 0#32 := by
    intro a i ha
    rw [MtArray.word, ha, List.getD, List.getElem?_getD_replicate_default_eq, htemper]
  rcases Nat.lt_or_ge e.mti.toNat 624 with hlt | hge
  · rw [mtDraw_of_lt hlt]
    exact ⟨hword _ h, h⟩
  · rw [mtDraw_of_ge hge]
    exact ⟨hword 0 (twistArray_words_of_zero h), twistArray_words_of_zero h⟩

theorem mtDraws_of_zero (n : Nat) {e : MtEngine} (h : e.mt.words = List.replicate 624 0#32) :
    (mtDraws n e).1 = List.replicate n 0#32 ∧ (mtDraws n e).2.mt.words = List.replicate 624 0#32 := by
  induction n generalizing e with
  | zero => exact ⟨rfl, h⟩
  | succ n ih =>
    obtain ⟨hword, harray⟩ := mtDraw_of_zero h
    obtain ⟨hwords, harray'⟩ := ih harray
    rw [mtDraws_succ, hword, hwords]
    exact ⟨rfl, harray'⟩

/-- The first 227 draws from the seed `0x80000000` read the first run of the twisted array. -/
theorem mtDraws_of_top {n : Nat} (hn : n ≤ 227) :
    (mtDraws n (seededEngine 0x80000000#32)).1 = List.replicate n 0xCC183306#32 := by
  have hword : ∀ i < 227, (twistArray (mtFill 0x80000000#32)).word i = 0xC0000000#32 := by
    intro i hi
    rw [MtArray.word, twistArray_words_of_top, List.append_assoc, List.append_assoc,
      List.getD_append _ _ _ _ (by rwa [List.length_replicate]), List.getD_replicate _ hi]
  have htemper : temper 0xC0000000#32 = 0xCC183306#32 := by decide
  rw [mtDraws_fst_of_ge n (by decide), mtDraws_fst_within n (by simp; omega), List.eq_replicate_iff]
  refine ⟨by rw [List.length_map, List.length_range'], fun w hw => ?_⟩
  obtain ⟨i, hi, rfl⟩ := List.mem_map.mp hw
  have hlt : i < 227 := (List.mem_range'_1.mp hi).2.trans_le (by simpa using hn)
  exact (congrArg temper (hword i hlt)).trans htemper

/-! ### The commands that draw -/

theorem exec_mtWord {s : State} {e : MtEngine} (he : s.mt = some e) :
    exec .mtWord s = .next ({ s with mt := some (mtDraw e).2 }.respond .ok (le32 (mtDraw e).1)) :=
  State.withMt_some he _

theorem exec_mtBytes (len : U32) {s : State} {e : MtEngine} (he : s.mt = some e) :
    exec (.mtBytes len) s =
      .next ({ s with mt := some (mtDraws len.toNat e).2 }.respond .ok ((mtDraws len.toNat e).1.map byteOf)) :=
  State.withMt_some he _

/-- The response of `MT.WORD` to the word it draws (R96). -/
def wordResponse (w : U32) : Response := ⟨.ok, le32 w⟩

/-- `MT.WORD` issued `n` times answers the words of `n` draws. -/
theorem execAll_mtWords (n : Nat) {s : State} {e : MtEngine} (he : s.mt = some e) :
    execAll (List.replicate n .mtWord) s =
      .next { s with mt := some (mtDraws n e).2, responses := s.responses ++ (mtDraws n e).1.map wordResponse } := by
  induction n generalizing s e with
  | zero =>
    rw [mtDraws_zero, ← he, List.map_nil, List.append_nil]
    rfl
  | succ n ih =>
    rw [List.replicate_succ, execAll_cons_of_exec (exec_mtWord he), ih rfl, mtDraws_succ]
    simp [State.respond, wordResponse]

theorem execAll_mtSeed_mtWords (n : Nat) (a : U32) (s : State) :
    execAll (.mtSeed a :: List.replicate n .mtWord) s =
      .next { s with mt := some (mtDraws n (seededEngine a)).2,
                     responses := s.responses ++ ⟨.ok, []⟩ :: (mtDraws n (seededEngine a)).1.map wordResponse } := by
  rw [execAll_cons_of_exec (exec_mtSeed a s), execAll_mtWords n rfl]
  simp [State.respond]

/-- Commands on an MT engine that is there leave an engine there, and it alone decides what they do (R97). -/
theorem execAll_actsOnMt {is : List Instr} (his : ∀ i ∈ is, usesMt i = true) (e : MtEngine) :
    ∃ (e' : MtEngine) (rs : List Response), rs.length = is.length ∧ ∀ s : State, s.mt = some e →
      execAll is s = .next { s with mt := some e', responses := s.responses ++ rs } := by
  induction is generalizing e with
  | nil => exact ⟨e, [], rfl, fun s he => by rw [← he, List.append_nil]; rfl⟩
  | cons i is ih =>
    obtain ⟨hi, his⟩ := List.forall_mem_cons.mp his
    obtain ⟨m', r, hchange, hexec⟩ := exec_actsOnMt (.inl hi) (some e)
    obtain ⟨e₁, rfl⟩ := Option.isSome_iff_exists.mp (hchange.keeps_valid rfl)
    obtain ⟨e', rs, hlen, hrest⟩ := ih his e₁
    refine ⟨e', r :: rs, by rw [List.length_cons, hlen, List.length_cons], fun s he => ?_⟩
    rw [execAll_cons_of_exec (hexec s he), hrest _ rfl, List.append_assoc]
    rfl

end Sys2Proof.Machine
end

section
/-! The statements about the MT engine (40_mt_core.md). -/

namespace Sys2Proof.Machine

/-- Settles O25: the fill's recurrence, and its closed form reduced to 32 bits. -/
theorem mtSeedFillsTheArray : Obligations.MtSeedFillsTheArray := by
  intro a s
  refine ⟨mtFill a, exec_mtSeed a s, rfl, fun i hi => ?_, fun i hi => ?_⟩
  · rw [mtFill_word_succ a hi, BitVec.ofNat_mul, BitVec.ofNat_toNat, BitVec.setWidth_eq]
  · rw [mtFill_word a hi, BitVec.ofNat_mul, BitVec.ofNat_toNat, BitVec.setWidth_eq, BitVec.ofNat_pow]

/-- Settles O26, by induction on the steps of the loop, each of which writes one more new word. -/
theorem theTwistIsTheInPlaceLoop : Obligations.TheTwistIsTheInPlaceLoop :=
  fun e => ⟨(twistLoop_eq e.mt).symm, rfl, rfl⟩

/-- Settles O27: each word of the twisted array is a twist step of the three words that R93 names. -/
theorem laterTwistStepsReadRewrittenWords : Obligations.LaterTwistStepsReadRewrittenWords := by
  intro e
  refine ⟨fun k hk => ?_, fun k hlo hhi => ?_, ?_⟩
  · rw [mtTwist_mt, twistArray_word_of_lt _ hk]
    exact twistsTo_twistWord _ _ _
  · rw [mtTwist_mt, twistArray_word_of_ge _ hlo hhi]
    exact twistsTo_twistWord _ _ _
  · rw [mtTwist_mt, twistArray_word_last]
    exact twistsTo_twistWord _ _ _

/-- Settles O28: tempering is injective, and the 32-bit words are finitely many. -/
theorem temperingIsABijection : Obligations.TemperingIsABijection :=
  Finite.injective_iff_bijective.mp temper_injective

/-- Settles O29: one draw, by the cursor. -/
theorem mtWordAnswersTheTemperedCursorWord : Obligations.MtWordAnswersTheTemperedCursorWord := by
  intro s
  refine ⟨fun hnone => State.withMt_none hnone _, fun e he hlt => ?_, fun e he hge => ?_⟩
  · rw [exec_mtWord he, mtDraw_of_lt hlt]
    rfl
  · rw [exec_mtWord he, mtDraw_of_ge hge]
    rfl

/-- Settles O30: after `MT.SEED a` the engine is the same in both states, and the MT commands depend on it alone. -/
theorem reseedingForgetsTheHistory : Obligations.ReseedingForgetsTheHistory := by
  intro a is s u his
  obtain ⟨e, rs, hlen, hrest⟩ := execAll_actsOnMt his (seededEngine a)
  have hrun : ∀ t : State, execAll (.mtSeed a :: is) t =
      .next { t with mt := some e, responses := t.responses ++ ⟨.ok, []⟩ :: rs } := fun t => by
    rw [execAll_cons_of_exec (exec_mtSeed a t), hrest _ rfl]
    simp [State.respond]
  exact ⟨e, _, hrun s, hrun u, by rw [List.length_cons, hlen]⟩

/-- Settles O31: the cadence of `mtDraws_succ_snd`, from the cursor 624 of `MT.SEED` and from any cursor. -/
theorem theTwistComesEvery624Draws : Obligations.TheTwistComesEvery624Draws := by
  refine ⟨fun a d s hd => ?_, fun s e he => ?_, fun s e n he hcursor hn => ?_⟩
  · obtain ⟨n, rfl⟩ := Nat.exists_eq_add_of_le' hd
    have hstart : (seededEngine a).mti.toNat = 624 := rfl
    refine ⟨_, _, execAll_mtSeed_mtWords (n + 1) a s, rfl, ?_, ?_⟩
    · rw [mtDraws_succ_snd n hstart.le, hstart, BitVec.toNat_ofNat]
      omega
    · rw [mtDraws_succ_snd n hstart.le, hstart, Nat.add_comm 624 n]
      rfl
  · rw [exec_mtBytes 0#32 he, BitVec.toNat_ofNat, Nat.zero_mod, mtDraws_zero, State.with_mt_self he]
    rfl
  · obtain ⟨m, hm⟩ := Nat.exists_eq_add_of_le' hn
    refine ⟨(mtDraws n.toNat e).1.map byteOf, ?_⟩
    rw [exec_mtBytes n he, hm, mtDraws_succ_snd m hcursor]
    rfl

/-- Settles O32: the words that the two seeds draw. -/
theorem degenerateSeedsBehaveAsDerived : Obligations.DegenerateSeedsBehaveAsDerived := by
  refine ⟨fun n s => ?_, mtFill_words_of_fixed (by decide), twistArray_words_of_top, fun n s hn => ?_⟩
  · obtain ⟨hwords, harray⟩ := mtDraws_of_zero n (e := seededEngine 0#32) (mtFill_words_of_fixed (by decide))
    refine ⟨_, ?_, harray⟩
    rw [execAll_mtSeed_mtWords, hwords, List.map_replicate]
    rfl
  · refine ⟨(mtDraws n (seededEngine 0x80000000#32)).2, ?_⟩
    rw [execAll_mtSeed_mtWords, mtDraws_of_top hn, List.map_replicate]
    rfl

end Sys2Proof.Machine
end

section
/-! How rounding keeps the order (41_mt_adapters.md R111): a number of the format that bounds an exact result bounds the rounded one, and
truncation reads a rounded number through the integers below it. -/

namespace Sys2Proof.Machine

/-! ### Numbers of the format at a scale -/

/-- A natural below `2^53` at any scale of a power of two is a number of the format. -/
theorem exists_canonical_scaled {v : Nat} (hv : v < 2 ^ 53) (e : Int) :
    ∃ y : F64, y.Canonical ∧ y.value = (v : ℚ) * 2 ^ e := by
  obtain ⟨y, hy, hval⟩ := exists_canonical_of_lt hv
  rcases hy.eq_zero_or with rfl | hm
  · exact ⟨⟨0, 0⟩, hy, by rw [← hval, F64.value_zero, zero_mul]⟩
  · refine ⟨⟨y.mant, y.exp + e⟩, .inr hm, ?_⟩
    rw [← hval, F64.value, F64.value, zpow_add₀ (by norm_num), mul_assoc]

/-- A power of two below 1 is a number of the format. -/
theorem exists_canonical_one_div_two_pow (k : ℕ) : ∃ y : F64, y.Canonical ∧ y.value = 1 / 2 ^ k := by
  obtain ⟨y, hy, hval⟩ := exists_canonical_scaled (v := 1) (by norm_num) (-k)
  exact ⟨y, hy, by rw [hval, zpow_neg, zpow_natCast, Nat.cast_one, one_mul, one_div]⟩

/-- The last number of the format below `y` is at most one part in `2^52` below it. -/
theorem F64.Canonical.exists_predecessor {y : F64} (hy : y.Canonical) (hpos : 0 < y.value) :
    ∃ z : F64, z.Canonical ∧ z.value < y.value ∧ y.value * (1 - 1 / 2 ^ 52) ≤ z.value := by
  obtain ⟨hlo, hhi⟩ := hy.eq_zero_or.resolve_left (by rintro rfl; simp at hpos)
  have hu : (0 : ℚ) < 2 ^ y.exp := by positivity
  obtain ⟨z, hz, hval⟩ := exists_canonical_scaled (v := y.mant - 1) (by omega) y.exp
  have hgap : z.value = y.value - 2 ^ y.exp := by
    rw [hval, Nat.cast_pred (by omega), F64.value, sub_one_mul]
  have hle := F64.le_value hlo
  exact ⟨z, hz, by linarith, by linarith⟩

/-! ### Bounds of a rounded number -/

/-- Rounding does not pass a number of the format from below. -/
theorem F64.IsNearest.value_le {x y : F64} {q : ℚ} (hx : x.IsNearest q) (hy : y.Canonical) (h : q ≤ y.value) :
    x.value ≤ y.value := by
  have hnear := (hx.2 y hy).1
  rw [abs_of_nonpos (sub_nonpos.mpr h)] at hnear
  linarith [neg_abs_le (q - x.value)]

/-- Rounding does not pass a number of the format from above. -/
theorem F64.IsNearest.le_value {x y : F64} {q : ℚ} (hx : x.IsNearest q) (hy : y.Canonical) (h : y.value ≤ q) :
    y.value ≤ x.value := by
  have hnear := (hx.2 y hy).1
  rw [abs_of_nonneg (sub_nonneg.mpr h)] at hnear
  linarith [le_abs_self (q - x.value)]

/-- An exact result at least one part in `2^52` below a number of the format is rounded to a smaller number. -/
theorem F64.IsNearest.value_lt {x y : F64} {q : ℚ} (hx : x.IsNearest q) (hy : y.Canonical) (hpos : 0 < y.value)
    (h : q ≤ y.value * (1 - 1 / 2 ^ 52)) : x.value < y.value := by
  obtain ⟨z, hz, hlt, hle⟩ := hy.exists_predecessor hpos
  exact (hx.value_le hz (h.trans hle)).trans_lt hlt

/-- Rounding keeps the order: otherwise the two numbers, exchanged, would lie nearer to the exact results. -/
theorem F64.IsNearest.value_mono {x y : F64} {p q : ℚ} (hx : x.IsNearest p) (hy : y.IsNearest q) (h : p < q) :
    x.value ≤ y.value := by
  have hxy := sq_le_sq.mpr (hx.2 y hy.1).1
  have hyx := sq_le_sq.mpr (hy.2 x hx.1).1
  by_contra hlt
  have hpos := mul_pos (sub_pos.mpr h) (sub_pos.mpr (not_le.mp hlt))
  linarith

/-- An exact result below `2^53` units of `2^(-k)` is rounded by less than one unit. -/
theorem F64.IsNearest.abs_sub_value_lt {x : F64} {q : ℚ} (hx : x.IsNearest q) (k : ℕ) (h0 : 0 ≤ q)
    (h : q * 2 ^ k < 2 ^ 53) : |q - x.value| < 1 / 2 ^ k := by
  have hu : (0 : ℚ) < 2 ^ k := by positivity
  have hfloor : (⌊q * 2 ^ k⌋₊ : ℚ) ≤ q * 2 ^ k := Nat.floor_le (by positivity)
  have hv : ⌊q * 2 ^ k⌋₊ < 2 ^ 53 := by exact_mod_cast hfloor.trans_lt h
  obtain ⟨y, hy, hval⟩ := exists_canonical_scaled hv (-k)
  rw [zpow_neg, zpow_natCast, ← div_eq_mul_inv] at hval
  have hle : y.value ≤ q := hval ▸ (div_le_iff₀ hu).mpr hfloor
  calc |q - x.value| ≤ |q - y.value| := (hx.2 y hy).1
    _ = q - y.value := abs_of_nonneg (sub_nonneg.mpr hle)
    _ < 1 / 2 ^ k := by
        rw [hval, sub_lt_iff_lt_add, ← add_div, lt_div_iff₀ hu, add_comm]
        exact Nat.lt_floor_add_one _

/-! ### Truncation -/

/-- `trunc` reaches the integers that its argument reaches (R13). -/
theorem F64.Canonical.le_trunc_iff {x : F64} (hx : x.Canonical) {n : Nat} : n ≤ trunc x ↔ (n : ℚ) ≤ x.value := by
  rw [← Nat.cast_le (α := ℤ), truncIsTheFloor x hx, Int.le_floor, Int.cast_natCast]

theorem F64.Canonical.trunc_lt_iff {x : F64} (hx : x.Canonical) {n : Nat} : trunc x < n ↔ x.value < n :=
  lt_iff_lt_of_le_iff_le hx.le_trunc_iff

theorem trunc_mono {x y : F64} (hx : x.Canonical) (hy : y.Canonical) (h : x.value ≤ y.value) : trunc x ≤ trunc y :=
  hy.le_trunc_iff.mpr ((hx.le_trunc_iff.mp le_rfl).trans h)

theorem trunc_cvt {r : Nat} (hr : r < 2 ^ 53) : trunc (cvt r) = r := by
  obtain ⟨hc, hval⟩ := cvtIsExact r hr
  refine eq_of_forall_le_iff fun n => ?_
  rw [hc.le_trunc_iff, hval, Nat.cast_le]

/-- A rounded quotient of small naturals truncates to the quotient of naturals. -/
theorem F64.IsNearest.trunc_eq_div {x : F64} {n d : Nat} (hx : x.IsNearest ((n : ℚ) / d)) (hd : 0 < d)
    (hsize : n + d ≤ 2 ^ 52) : trunc x = n / d := by
  have hlt : n < (n / d + 1) * d := Nat.lt_mul_of_div_lt (Nat.lt_succ_self _) hd
  have hsmall : (n / d + 1) * d ≤ 2 ^ 52 := by
    have := Nat.div_mul_le_self n d
    rw [Nat.succ_mul]
    omega
  have hquot : n / d + 1 ≤ 2 ^ 52 := (Nat.le_mul_of_pos_right _ hd).trans hsmall
  obtain ⟨y, hy, hyval⟩ := exists_canonical_of_lt (v := n / d) (by omega)
  obtain ⟨z, hz, hzval⟩ := exists_canonical_of_lt (v := n / d + 1) (by omega)
  have hbelow : ((n / d : ℕ) : ℚ) ≤ x.value := hyval ▸ hx.le_value hy (hyval ▸ Nat.cast_div_le)
  have habove : x.value < ((n / d + 1 : ℕ) : ℚ) := by
    rw [← hzval]
    refine hx.value_lt hz (by rw [hzval]; positivity) ?_
    have hlt' : (n : ℚ) + 1 ≤ ((n / d + 1 : ℕ) : ℚ) * d := by exact_mod_cast hlt
    have hsmall' : ((n / d + 1 : ℕ) : ℚ) * d ≤ 2 ^ 52 := by exact_mod_cast hsmall
    rw [hzval, div_le_iff₀ (by exact_mod_cast hd)]
    linarith
  exact le_antisymm (Nat.le_of_lt_succ (hx.1.trunc_lt_iff.mpr habove)) (hx.1.le_trunc_iff.mpr hbelow)

end Sys2Proof.Machine
end

section
/-! The quotient of a raw word and what `rescale` makes of it (41_mt_adapters.md R110, R111, R117, R121). -/

namespace Sys2Proof.Machine

/-- The quotient of two integers below `2^53` is rounded once, for both are exact. -/
theorem fdiv_cvt_isNearest {m n : Nat} (hm : m < 2 ^ 53) (hn : n < 2 ^ 53) (hpos : 0 < n) :
    (fdiv (cvt m) (cvt n)).IsNearest ((m : ℚ) / n) := by
  obtain ⟨hmc, hmval⟩ := cvtIsExact m hm
  obtain ⟨hnc, hnval⟩ := cvtIsExact n hn
  rw [← hmval, ← hnval]
  refine fdivRoundsOnceToNearestEven _ _ hmc hnc fun h0 => ?_
  rw [F64.value, h0, Nat.cast_zero, zero_mul] at hnval
  exact hpos.ne (by exact_mod_cast hnval)

theorem fmul_cvt_isNearest {x : F64} (hx : x.Canonical) {r : Nat} (hr : r < 2 ^ 53) :
    (fmul x (cvt r)).IsNearest (x.value * r) := by
  obtain ⟨hc, hval⟩ := cvtIsExact r hr
  rw [← hval]
  exact fmulRoundsOnceToNearestEven _ _ hx hc

/-! ### The quotient `W / 4294967295` (R110, R118) -/

theorem unitFloat_isNearest (W : U32) : (unitFloat W).IsNearest ((W.toNat : ℚ) / 4294967295) :=
  fdiv_cvt_isNearest (W.isLt.trans (by norm_num)) (by norm_num) (by norm_num)

theorem unitFloat_canonical (W : U32) : (unitFloat W).Canonical := (unitFloat_isNearest W).1

theorem unitFloat_zero : unitFloat 0#32 = ⟨0, 0⟩ := rfl

theorem unitFloat_top : unitFloat 0xFFFFFFFF#32 = cvt 1 := by decide

theorem eq_lastWord_iff (W : U32) : W = 0xFFFFFFFF#32 ↔ W.toNat = 4294967295 := BitVec.toNat_eq

/-- The exact quotient lies in `[0, 1]`. -/
theorem unitQuotient_range (W : U32) : 0 ≤ (W.toNat : ℚ) / 4294967295 ∧ (W.toNat : ℚ) / 4294967295 ≤ 1 := by
  have hW : (W.toNat : ℚ) ≤ 4294967295 := by exact_mod_cast Nat.le_of_lt_succ W.isLt
  exact ⟨by positivity, div_le_one_of_le₀ hW (by norm_num)⟩

theorem unitFloat_value_nonneg (W : U32) : 0 ≤ (unitFloat W).value :=
  F64.value_zero ▸ (unitFloat_isNearest W).le_value F64.canonical_zero (by simpa using (unitQuotient_range W).1)

theorem unitFloat_value_le_one (W : U32) : (unitFloat W).value ≤ 1 := by
  obtain ⟨hc, hval⟩ := cvtIsExact 1 (by norm_num)
  rw [Nat.cast_one] at hval
  rw [← hval]
  exact (unitFloat_isNearest W).value_le hc (hval ▸ (unitQuotient_range W).2)

/-- Only the last word comes nearer to 1 than `2^(-32)` (R111 (d)). -/
theorem unitFloat_value_le_of_ne_top {W : U32} (h : W ≠ 0xFFFFFFFF#32) : (unitFloat W).value ≤ 1 - 1 / 2 ^ 32 := by
  obtain ⟨y, hy, hval⟩ := exists_canonical_scaled (v := 2 ^ 32 - 1) (by norm_num) (-32)
  have hyval : y.value = 1 - 1 / 2 ^ 32 := by rw [hval]; norm_num
  have hW : (W.toNat : ℚ) ≤ 4294967294 := by
    have := W.isLt
    have := mt (eq_lastWord_iff W).mpr h
    exact_mod_cast (by omega : W.toNat ≤ 4294967294)
  rw [← hyval]
  refine (unitFloat_isNearest W).value_le hy ?_
  rw [hyval, div_le_iff₀ (by norm_num)]
  linarith

/-- A nonzero word has a quotient of at least `2^(-33)` (R121). -/
theorem le_unitFloat_value_of_ne_zero {W : U32} (h : W ≠ 0#32) : 1 / 2 ^ 33 ≤ (unitFloat W).value := by
  obtain ⟨y, hy, hval⟩ := exists_canonical_one_div_two_pow 33
  have hW : (1 : ℚ) ≤ W.toNat := by
    exact_mod_cast Nat.one_le_iff_ne_zero.mpr fun h0 => h (BitVec.eq_of_toNat_eq h0)
  rw [← hval]
  refine (unitFloat_isNearest W).le_value hy ?_
  rw [hval, le_div_iff₀ (by norm_num)]
  linarith

/-- A larger word has a larger quotient: exact quotients lie farther apart than the roundings reach (R118). -/
theorem unitFloat_value_lt {V W : U32} (h : V.toNat < W.toNat) : (unitFloat V).value < (unitFloat W).value := by
  have hclose : ∀ U : U32, |(U.toNat : ℚ) / 4294967295 - (unitFloat U).value| < 1 / 2 ^ 40 := fun U => by
    obtain ⟨h0, h1⟩ := unitQuotient_range U
    exact (unitFloat_isNearest U).abs_sub_value_lt 40 h0 (by linarith)
  have hgap : (V.toNat : ℚ) / 4294967295 + 1 / 4294967295 ≤ W.toNat / 4294967295 := by
    rw [← add_div]
    exact div_le_div_of_nonneg_right (by exact_mod_cast h) (by norm_num)
  have hV := abs_lt.mp (hclose V)
  have hW := abs_lt.mp (hclose W)
  linarith

theorem unitFloat_injective : Function.Injective unitFloat := by
  intro V W h
  by_contra hne
  rcases Nat.lt_or_gt_of_ne (mt BitVec.toNat_eq.mpr hne) with hlt | hgt
  · exact (unitFloat_value_lt hlt).ne (h ▸ rfl)
  · exact (unitFloat_value_lt hgt).ne (h ▸ rfl)

/-! ### The product and its floor (R111) -/

section

variable {r : Nat} (hr : r < 2 ^ 53)

include hr

/-- The rounded product does not pass the multiplier. -/
theorem scaled_value_le (W : U32) : (fmul (unitFloat W) (cvt r)).value ≤ r := by
  obtain ⟨hc, hval⟩ := cvtIsExact r hr
  rw [← hval]
  refine (fmul_cvt_isNearest (unitFloat_canonical W) hr).value_le hc ?_
  rw [hval]
  exact mul_le_of_le_one_left r.cast_nonneg (unitFloat_value_le_one W)

theorem rescale_le (W : U32) : rescale W r ≤ r := by
  have hc := (fmul_cvt_isNearest (unitFloat_canonical W) hr).1
  exact_mod_cast (hc.le_trunc_iff.mp le_rfl).trans (scaled_value_le hr W)

theorem rescale_top : rescale 0xFFFFFFFF#32 r = r := by
  obtain ⟨hc, hval⟩ := cvtIsExact r hr
  have hone : (cvt 1).value = 1 := by simpa using (cvtIsExact 1 (by norm_num)).2
  have hnear := fmul_cvt_isNearest (unitFloat_canonical 0xFFFFFFFF#32) hr
  rw [unitFloat_top, hone, one_mul, ← hval] at hnear
  rw [rescale, unitFloat_top, hnear.eq hc, trunc_cvt hr]

/-- Below the last word the exact product stays one part in `2^32` below the multiplier, and the numbers of the format
are denser than that (R111 (d)). -/
theorem rescale_lt (hpos : 0 < r) {W : U32} (hW : W ≠ 0xFFFFFFFF#32) : rescale W r < r := by
  obtain ⟨hc, hval⟩ := cvtIsExact r hr
  have hrq : (0 : ℚ) < r := by exact_mod_cast hpos
  have hnear := fmul_cvt_isNearest (unitFloat_canonical W) hr
  have hlt : (fmul (unitFloat W) (cvt r)).value < (cvt r).value := by
    refine hnear.value_lt hc (hval ▸ hrq) ?_
    rw [hval, mul_comm]
    have := unitFloat_value_le_of_ne_top hW
    exact mul_le_mul_of_nonneg_left (by linarith) hrq.le
  exact hnear.1.trunc_lt_iff.mpr (hval ▸ hlt)

theorem rescale_eq_iff (hpos : 0 < r) (W : U32) : rescale W r = r ↔ W = 0xFFFFFFFF#32 := by
  refine ⟨fun h => ?_, fun h => h ▸ rescale_top hr⟩
  by_contra hW
  exact (rescale_lt hr hpos hW).ne h

theorem rescale_mono (hpos : 0 < r) {V W : U32} (h : V.toNat ≤ W.toNat) : rescale V r ≤ rescale W r := by
  rcases h.lt_or_eq with hlt | heq
  · have hV := fmul_cvt_isNearest (unitFloat_canonical V) hr
    have hW := fmul_cvt_isNearest (unitFloat_canonical W) hr
    exact trunc_mono hV.1 hW.1
      (hV.value_mono hW (mul_lt_mul_of_pos_right (unitFloat_value_lt hlt) (by exact_mod_cast hpos)))
  · rw [BitVec.eq_of_toNat_eq heq]

/-- The rounded product of a nonzero word does not fall below the least quotient (R121). -/
theorem le_scaled_value (hpos : 0 < r) {W : U32} (hW : W ≠ 0#32) : 1 / 2 ^ 33 ≤ (fmul (unitFloat W) (cvt r)).value := by
  obtain ⟨y, hy, hval⟩ := exists_canonical_one_div_two_pow 33
  rw [← hval]
  refine (fmul_cvt_isNearest (unitFloat_canonical W) hr).le_value hy ?_
  rw [hval]
  calc (1 : ℚ) / 2 ^ 33 ≤ (unitFloat W).value := le_unitFloat_value_of_ne_zero hW
    _ ≤ (unitFloat W).value * r := le_mul_of_one_le_right (unitFloat_value_nonneg W) (by exact_mod_cast hpos)

end

theorem fmul_zero_left (x : F64) : fmul ⟨0, 0⟩ x = ⟨0, 0⟩ := by simp [fmul, roundQuotient]

theorem rescale_zero (r : Nat) : rescale 0#32 r = 0 := by
  rw [rescale, unitFloat_zero, fmul_zero_left]
  rfl

/-! ### The byte of a word (R117) -/

theorem byteOf_toNat (W : U32) : (byteOf W).toNat = W.toNat / 16843009 := by
  have hlt : W.toNat / 16843009 < 2 ^ 8 := by have := W.isLt; omega
  exact (BitVec.toNat_ofNat _ _).trans (Nat.mod_eq_of_lt hlt)

/-- The inner quotient of the byte's formula is an integer, so its rounding is exact. -/
theorem fdiv_divisor_255 : fdiv (cvt 4294967295) (cvt 255) = cvt 16843009 := by
  obtain ⟨hc, hval⟩ := cvtIsExact 16843009 (by norm_num)
  have hnear := fdiv_cvt_isNearest (m := 4294967295) (n := 255) (by norm_num) (by norm_num) (by norm_num)
  have hquot : ((4294967295 : ℕ) : ℚ) / (255 : ℕ) = (cvt 16843009).value := by rw [hval]; norm_num
  exact (hquot ▸ hnear).eq hc

end Sys2Proof.Machine
end

section
/-! The commands that draw once (41_mt_adapters.md R120): one test, one draw, and a payload made of the word drawn and the operands. -/

namespace Sys2Proof.Machine

/-- The payload of a one-draw command, from the word drawn (R96, R112 to R116, R118, R119); no other command has one. -/
def drawPayload (i : Instr) (W : U32) : List Byte :=
  match i with
  | .mtWord => le32 W
  | .mtWordb max => le32 (BitVec.ofNat 32 (rescale W max.toNat))
  | .mtWordr min max => le32 (BitVec.ofNat 32 (min.toNat + rescale W (max.toNat - min.toNat)))
  | .mtInt => le32 (W >>> 1)
  | .mtIntb max => le32 (signedWord (rescale W (signed max).toNat))
  | .mtIntr min max => le32 (signedWord (signed min + rescale W (signed max - signed min).toNat))
  | .mtF64 => le64 (f64Bits (unitFloat W))
  | .mtU64c => le64 (coarse W)
  | .mtSeed _ | .mtBytes _ | .mtRdseed | .mtRdmti | .mtRdst _ | .xsInit _ | .xsWord | .xsRdst _ | .rdstat => []

/-- What every one-draw command does: the operand test of R181, one draw, the payload of its word. -/
theorem exec_of_drawsOnce {i : Instr} (h : drawsOnce i = true) (s : State) :
    exec i s = s.mtCommand (operandFault i).isSome 1 fun e => drawPayload i (mtDraw e).1 := by
  cases i with
  | mtWord | mtInt | mtF64 | mtU64c => rfl
  | mtWordb max => exact s.mtCommand_draws (BitVec.toNat_eq.trans Option.isSome_ite.symm) _
  | mtWordr | mtIntb => exact s.mtCommand_draws Option.isSome_ite.symm _
  | mtIntr min max =>
    exact (State.withMt_congr fun _ _ => State.rangeCheck_rangeCheck _).trans (s.mtCommand_draws Option.isSome_ite.symm _)
  | _ => cases h

/-- Without an MT engine a command that uses it answers `ERR_NOT_INIT` (R183). -/
theorem exec_of_mt_none {i : Instr} {s : State} (h : usesMt i = true) (hmt : s.mt = none) :
    exec i s = .next (s.respond .errNotInit []) := by
  obtain ⟨payload, hexec⟩ := exec_of_usesMt h
  rw [hexec, State.mtCommand, State.withMt_none hmt]

/-- With an MT engine and a failing operand it answers `ERR_RANGE` (R185). -/
theorem exec_of_operandFault {i : Instr} {s : State} (h : usesMt i = true) (hmt : s.mt ≠ none)
    (hfault : operandFault i = some .errRange) : exec i s = .next (s.respond .errRange []) := by
  obtain ⟨payload, hexec⟩ := exec_of_usesMt h
  obtain ⟨e, he⟩ := Option.ne_none_iff_exists'.mp hmt
  rw [hexec, State.mtCommand, State.withMt_some he, State.rangeCheck_fails (by rw [hfault]; rfl)]

/-- The draw of `MT.WORD` in the state `s`, and a command that consumes it for its own payload (R120). -/
theorem exec_consumes_mtWord {i : Instr} {s : State} (h : drawsOnce i = true) (hmt : s.mt ≠ none)
    (hfault : operandFault i = none) : ∃ (W : U32) (e : MtEngine),
      exec .mtWord s = .next { s with mt := some e, responses := s.responses ++ [⟨.ok, le32 W⟩] } ∧
      exec i s = .next { s with mt := some e, responses := s.responses ++ [⟨.ok, drawPayload i W⟩] } := by
  obtain ⟨e, he⟩ := Option.ne_none_iff_exists'.mp hmt
  refine ⟨(mtDraw e).1, (mtDraw e).2, exec_mtWord he, ?_⟩
  rw [exec_of_drawsOnce h, State.mtCommand, State.withMt_some he, State.rangeCheck_passes (by simp [hfault])]
  rfl

/-- A command on the MT engine whose status is `OK` finds that engine (R183). -/
theorem mt_ne_none_of_statusOf_ok {i : Instr} {s : State} (h : usesMt i = true) (hok : statusOf i s = .ok) :
    s.mt ≠ none := by
  intro hmt
  simp [statusOf, h, State.mtValid, hmt] at hok

/-! ### Words of a rescaled draw -/

section

variable {r : Nat} {hi W : U32} (hpos : 0 < r)

include hpos

/-- A rescaled draw moved up by `lo` fits an unsigned word, lies below `lo + r`, and is `lo + r` for the last word alone
(R112, R113). -/
theorem rescaled_word {lo n : Nat} (hn : n = lo + rescale W r) (hsum : lo + r = hi.toNat) :
    (BitVec.ofNat 32 n).toNat = n ∧ n ≤ hi.toNat ∧ (BitVec.ofNat 32 n = hi ↔ W = 0xFFFFFFFF#32) := by
  have hhi := hi.isLt
  have hr : r < 2 ^ 53 := by omega
  have hle := rescale_le hr W
  have hword : (BitVec.ofNat 32 n).toNat = n := (BitVec.toNat_ofNat _ _).trans (Nat.mod_eq_of_lt (by omega))
  refine ⟨hword, by omega, ?_⟩
  rw [← rescale_eq_iff hr hpos, ← BitVec.toNat_inj, hword]
  omega

/-- The same of a signed word, the least of which is `-2^31` (R115, R116). -/
theorem rescaled_signedWord {lo v : Int} (hv : v = lo + rescale W r) (hsum : lo + r = hi.toInt)
    (hlo : -2147483648 ≤ lo) :
    (signedWord v).toInt = v ∧ lo ≤ v ∧ v ≤ hi.toInt ∧ (signedWord v = hi ↔ W = 0xFFFFFFFF#32) := by
  have hhi : hi.toInt < 2147483648 := BitVec.toInt_lt
  have hr : r < 2 ^ 53 := by omega
  have hle := rescale_le hr W
  have hword : (signedWord v).toInt = v := BitVec.toInt_ofInt_eq_self (by decide) (by omega) (by omega)
  refine ⟨hword, by omega, by omega, ?_⟩
  rw [← rescale_eq_iff hr hpos, ← BitVec.toInt_inj, hword]
  omega

end

theorem ushiftRight_one_toInt (W : U32) : (W >>> 1).toInt = (W.toNat / 2 : Nat) := by
  have hhalf : (W >>> 1).toNat = W.toNat / 2 := by rw [BitVec.toNat_ushiftRight, Nat.shiftRight_one]
  have := W.isLt
  rw [BitVec.toInt_eq_toNat_of_lt (by omega), hhalf]

/-- The coarse value is the draw rescaled by `10^12` (R119). -/
theorem coarse_toNat (W : U32) : (coarse W).toNat = rescale W Config.coarseMult := by
  have hle := rescale_le (r := Config.coarseMult) (by norm_num) W
  exact (BitVec.toNat_ofNat _ _).trans (Nat.mod_eq_of_lt (hle.trans_lt (by norm_num)))

end Sys2Proof.Machine
end

section
/-! The bits of the quotient (41_mt_adapters.md R118): in the normal range different numbers have different bits. -/

namespace Sys2Proof.Machine

/-- Zero, or a number of 53 bits whose exponent is one of binary64's normal exponents (R121). -/
def F64.InNormalRange (x : F64) : Prop :=
  x = ⟨0, 0⟩ ∨ (x.Canonical ∧ x.mant ≠ 0 ∧ -1022 ≤ x.exp + 52 ∧ x.exp + 52 ≤ 1023)

/-- A canonical number in `[2^(-33), 1]` has an exponent between those of the two ends. -/
theorem F64.Canonical.inNormalRange {x : F64} (hx : x.Canonical) (hlo : 1 / 2 ^ 33 ≤ x.value) (hhi : x.value ≤ 1) :
    x.InNormalRange := by
  rcases hx.eq_zero_or with h | ⟨hm1, hm2⟩
  · exact .inl h
  · have hlow : (⟨2 ^ 52, -85⟩ : F64).exp ≤ x.exp :=
      F64.exp_le_of_value_le le_rfl hm2 (le_of_eq_of_le (by norm_num [F64.value]) hlo)
    have hhigh : x.exp ≤ (⟨2 ^ 52, -52⟩ : F64).exp :=
      F64.exp_le_of_value_le hm1 (by norm_num) (hhi.trans_eq (by norm_num [F64.value]))
    simp only at hlow hhigh
    exact .inr ⟨hx, by omega, by omega, by omega⟩

theorem unitFloat_inNormalRange (W : U32) : (unitFloat W).InNormalRange := by
  by_cases hW : W = 0#32
  · exact .inl (hW ▸ unitFloat_zero)
  · exact (unitFloat_canonical W).inNormalRange (le_unitFloat_value_of_ne_zero hW) (unitFloat_value_le_one W)

/-- The exponent field of a nonzero number is not zero, so its bits are not those of zero. -/
theorem f64Bits_ne_zero {x : F64} (hx : x.Canonical) (hm : x.mant ≠ 0) (hlow : -1022 ≤ x.exp + 52)
    (hhigh : x.exp + 52 ≤ 1023) : f64Bits x ≠ 0#64 := by
  intro h
  obtain ⟨-, hexp, -⟩ := floatBitsHaveTheBinary64Fields.2 x hx hm hlow hhigh
  rw [h] at hexp
  have : ((0#64).extractLsb' 52 11).toNat = 0 := rfl
  omega

/-- The fields of R13 give the number back. -/
theorem f64Bits_injOn {x y : F64} (hx : x.InNormalRange) (hy : y.InNormalRange) (h : f64Bits x = f64Bits y) : x = y := by
  have hzero : f64Bits ⟨0, 0⟩ = 0#64 := rfl
  rcases hx with rfl | ⟨hxc, hxm, hx1, hx2⟩ <;> rcases hy with rfl | ⟨hyc, hym, hy1, hy2⟩
  · rfl
  · exact absurd (h.symm.trans hzero) (f64Bits_ne_zero hyc hym hy1 hy2)
  · exact absurd (h.trans hzero) (f64Bits_ne_zero hxc hxm hx1 hx2)
  · obtain ⟨-, hxe, hxf⟩ := floatBitsHaveTheBinary64Fields.2 x hxc hxm hx1 hx2
    obtain ⟨-, hye, hyf⟩ := floatBitsHaveTheBinary64Fields.2 y hyc hym hy1 hy2
    rw [h] at hxe hxf
    change F64.mk x.mant x.exp = F64.mk y.mant y.exp
    rw [hxf.symm.trans hyf, (by omega : x.exp = y.exp)]

theorem f64Bits_unitFloat_injective : Function.Injective fun W => f64Bits (unitFloat W) := fun V W h =>
  unitFloat_injective (f64Bits_injOn (unitFloat_inNormalRange V) (unitFloat_inNormalRange W) h)

theorem f64Bits_unitFloat_top : f64Bits (unitFloat 0xFFFFFFFF#32) = 0x3FF0000000000000#64 := by decide

end Sys2Proof.Machine
end

section
/-! The statements about the MT adapters (41_mt_adapters.md). -/

namespace Sys2Proof.Machine

/-- Settles O38: a quotient is 0 for the word 0 and otherwise within the exact bounds, and so is its product. -/
theorem adapterFloatsStayNormal : Obligations.AdapterFloatsStayNormal := by
  intro W r hr
  change ((unitFloat W).value = 0 ∨ _) ∧ ((fmul (unitFloat W) (cvt r)).value = 0 ∨ _)
  have hlt : r < 2 ^ 53 := by omega
  have hmax : (r : ℚ) ≤ 1000000000000 := by exact_mod_cast (by omega : r ≤ 1000000000000)
  by_cases hW : W = 0#32
  · rw [hW, unitFloat_zero, fmul_zero_left]
    exact ⟨.inl F64.value_zero, .inl F64.value_zero⟩
  · exact ⟨.inr ⟨le_unitFloat_value_of_ne_zero hW, unitFloat_value_le_one W⟩,
      .inr ⟨le_scaled_value hlt (by omega) hW, (scaled_value_le hlt W).trans hmax⟩⟩

/-- Settles O39: the bounds of R111. -/
theorem rescaleIsBoundedAndMonotone : Obligations.RescaleIsBoundedAndMonotone := by
  intro r hpos hr
  have hlt : r < 2 ^ 53 := by omega
  refine ⟨rescale_le hlt, rescale_zero r, rescale_top hlt, fun W hW => ?_, fun V W => rescale_mono hlt hpos⟩
  have hne : W ≠ 0xFFFFFFFF#32 := fun h => by rw [(eq_lastWord_iff W).mp h] at hW; omega
  exact Nat.le_pred_of_lt (rescale_lt hlt hpos hne)

/-- Settles O40: the payload is `drawPayload`, a function of the word drawn. -/
theorem adaptersConsumeTheDrawOfMtWord : Obligations.AdaptersConsumeTheDrawOfMtWord := by
  intro i hi
  refine ⟨drawPayload i, fun s hok => ?_⟩
  have hmt := mt_ne_none_of_statusOf_ok (usesMt_and_drawCount_of_drawsOnce hi).1 hok
  exact exec_consumes_mtWord hi hmt (operandFault_of_statusOf_ok hok)

/-- Settles O41: the rescaled draw of the range from 0 to `max`. -/
theorem mtWordbAnswersTheRescaledDraw : Obligations.MtWordbAnswersTheRescaledDraw := by
  intro max s
  refine ⟨exec_of_mt_none rfl, fun hmt hmax => exec_of_operandFault rfl hmt (if_pos (by rw [hmax]; rfl)), fun hmt hmax => ?_⟩
  have hpos : 0 < max.toNat := Nat.pos_of_ne_zero fun h0 => hmax (BitVec.eq_of_toNat_eq h0)
  obtain ⟨W, e, hword, hexec⟩ := exec_consumes_mtWord (i := .mtWordb max) rfl hmt (if_neg hpos.ne')
  obtain ⟨hval, hle, htop⟩ := rescaled_word hpos (W := W) (Nat.zero_add _).symm (Nat.zero_add _)
  exact ⟨W, _, e, hword, hexec, hval, hval.trans_le hle, htop⟩

/-- Settles O42: the rescaled draw of the range from `min` to `max`. -/
theorem mtWordrAnswersInTheRange : Obligations.MtWordrAnswersInTheRange := by
  intro min max s
  refine ⟨exec_of_mt_none rfl, fun hmt hmax => exec_of_operandFault rfl hmt (if_pos hmax), fun hmt hlt => ?_⟩
  obtain ⟨W, e, hword, hexec⟩ := exec_consumes_mtWord (i := .mtWordr min max) rfl hmt (if_neg (Nat.not_le.mpr hlt))
  obtain ⟨hval, hle, htop⟩ := rescaled_word (W := W) (Nat.sub_pos_of_lt hlt) rfl (Nat.add_sub_of_le hlt.le)
  exact ⟨W, _, e, hword, hexec, hval, hval.trans_le hle, htop⟩

/-- Settles O43: the shift by one place is the division by two, and leaves the sign bit clear. -/
theorem mtIntAnswersHalfTheDraw : Obligations.MtIntAnswersHalfTheDraw := by
  intro s
  refine ⟨exec_of_mt_none rfl, fun hmt => ?_⟩
  obtain ⟨W, e, hword, hexec⟩ := exec_consumes_mtWord (i := .mtInt) rfl hmt rfl
  have hhalf := ushiftRight_one_toInt W
  exact ⟨W, W >>> 1, e, hword, hexec, hhalf, hhalf ▸ Int.natCast_nonneg _⟩

/-- Settles O44: the rescaled draw of the range from 0 to the signed `max`. -/
theorem mtIntbAnswersTheRescaledDraw : Obligations.MtIntbAnswersTheRescaledDraw := by
  intro max s
  refine ⟨exec_of_mt_none rfl, fun hmt hmax => exec_of_operandFault rfl hmt (if_pos hmax), fun hmt hpos => ?_⟩
  obtain ⟨W, e, hword, hexec⟩ := exec_consumes_mtWord (i := .mtIntb max) rfl hmt (if_neg (Int.not_le.mpr hpos))
  obtain ⟨hval, hge, hle, htop⟩ := rescaled_signedWord (r := max.toInt.toNat) (hi := max) (W := W) (by omega)
    (Int.zero_add _).symm (by omega) (by norm_num)
  exact ⟨W, _, e, hword, hexec, hval, hval.ge.trans' hge, hval.trans_le hle, htop⟩

/-- Settles O45: the rescaled draw of the range from the signed `min` to the signed `max`. -/
theorem mtIntrAnswersInTheSignedRange : Obligations.MtIntrAnswersInTheSignedRange := by
  intro min max s
  refine ⟨exec_of_mt_none rfl, fun hmt hrange => exec_of_operandFault rfl hmt (if_pos hrange), fun hmt hpos hmax => ?_⟩
  obtain ⟨W, e, hword, hexec⟩ := exec_consumes_mtWord (i := .mtIntr min max) rfl hmt (if_neg (by omega))
  obtain ⟨hval, hge, hle, htop⟩ := rescaled_signedWord (r := (max.toInt - min.toInt).toNat) (hi := max) (W := W) (by omega)
    rfl (by omega) (BitVec.le_toInt min)
  exact ⟨W, _, e, hword, hexec, hval, hval.ge.trans' hge, hval.trans_le hle, htop⟩

/-- Settles O46: both sides are `mtDraws`, the draws in a row. -/
theorem mtBytesDividesSuccessiveDraws : Obligations.MtBytesDividesSuccessiveDraws := by
  intro len s
  refine ⟨exec_of_mt_none rfl, fun hmt => ?_⟩
  obtain ⟨e, he⟩ := Option.ne_none_iff_exists'.mp hmt
  exact ⟨(mtDraws len.toNat e).1, some (mtDraws len.toNat e).2, mtDraws_length _ e, execAll_mtWords _ he, exec_mtBytes len he⟩

/-- Settles O47: the inner quotient is exactly 16843009, and a rounded quotient of integers this small has the floor of the
exact one. -/
theorem byteIsTheTruncatedFloatQuotient : Obligations.ByteIsTheTruncatedFloatQuotient := by
  intro W
  have hW := W.isLt
  have hquot := fdiv_cvt_isNearest (m := W.toNat) (n := 16843009) (by omega) (by norm_num) (by norm_num)
  refine ⟨byteOf_toNat W, ?_, ?_, ?_⟩
  · rw [fdiv_divisor_255, byteOf_toNat, hquot.trunc_eq_div (by norm_num) (by omega)]
  · rw [← BitVec.toNat_inj, byteOf_toNat, eq_lastWord_iff, BitVec.toNat_ofNat]
    omega
  · rw [← BitVec.toNat_inj, byteOf_toNat, BitVec.toNat_ofNat]
    omega

/-- Settles O48: the draw's quotient, whose bits are different for different words. -/
theorem mtF64AnswersTheUnitFloat : Obligations.MtF64AnswersTheUnitFloat := by
  refine ⟨fun s => ⟨exec_of_mt_none rfl, fun hmt => ?_⟩, fun W => ⟨?_, ?_⟩, f64Bits_unitFloat_injective⟩
  · obtain ⟨W, e, hword, hexec⟩ := exec_consumes_mtWord (i := .mtF64) rfl hmt rfl
    exact ⟨W, e, unitFloat W, hword, hexec, rfl, unitFloat_isNearest W⟩
  · exact f64Bits_unitFloat_injective.eq_iff (b := 0#32)
  · rw [← f64Bits_unitFloat_top]
    exact f64Bits_unitFloat_injective.eq_iff

/-- Settles O49: the coarse value is the draw rescaled by `10^12`. -/
theorem mtU64cAnswersTheCoarseValue : Obligations.MtU64cAnswersTheCoarseValue := by
  intro s
  refine ⟨exec_of_mt_none rfl, fun hmt => ?_⟩
  obtain ⟨W, e, hword, hexec⟩ := exec_consumes_mtWord (i := .mtU64c) rfl hmt rfl
  have hval := coarse_toNat W
  have hlt : 1000000000000 < 2 ^ 53 := by norm_num
  refine ⟨W, coarse W, e, hword, hexec, hval, hval.trans_le (rescale_le hlt W), ?_, ?_⟩
  · rw [← BitVec.toNat_inj, hval]
    exact rescale_eq_iff hlt (by norm_num) W
  · rintro rfl
    exact BitVec.eq_of_toNat_eq (hval.trans (rescale_zero _))

end Sys2Proof.Machine
end

section
/-! The XS engine: what its two commands do (42_xoshiro.md R140, R141), and one call of `xs_next` as a closed form (R143). -/

namespace Sys2Proof.Machine

/-! ### `XS.INIT` (R140) -/

theorem exec_xsInit_four (a b c d : U64) (s : State) :
    exec (.xsInit [a, b, c, d]) s = .next ({ s with xs := some #v[a, b, c, d] }.respond .ok []) := rfl

theorem exec_xsInit_of_length_ne_four {ws : List U64} (h : ws.length ≠ 4) (s : State) :
    exec (.xsInit ws) s = .next (s.respond .errInvalidState []) := by
  rcases exec_xsInit ws with ⟨-, hlen, -⟩ | ⟨-, hexec⟩
  · exact absurd hlen h
  · exact hexec s

/-! ### `XS.WORD` (R141, R143) -/

theorem exec_xsWord_of_xs_none {s : State} (h : s.xs = none) : exec .xsWord s = .next (s.respond .errNotInit []) :=
  State.withXs_none h _

theorem exec_xsWord {s : State} {v : Vector U64 4} (h : s.xs = some v) :
    exec .xsWord s = .next ({ s with xs := some (xsNext v).2 }.respond .ok (le64 (xsNext v).1)) :=
  State.withXs_some h _

/-- The result is a function of the second word alone, and each new word is a function of the four old ones (R143). -/
theorem xsNext_words (a b c d : U64) :
    xsNext #v[a, b, c, d] =
      (rotl (b * 5#64) 7 * 9#64, #v[a ^^^ b ^^^ d, a ^^^ b ^^^ c, a ^^^ c ^^^ (b <<< 17), rotl (b ^^^ d) 45]) := by
  have h0 : a ^^^ (d ^^^ b) = a ^^^ b ^^^ d := by ac_rfl
  have h1 : b ^^^ (c ^^^ a) = a ^^^ b ^^^ c := by ac_rfl
  rw [← h0, ← h1, BitVec.xor_comm a c, BitVec.xor_comm b d]
  rfl

/-- The all-zero state is a fixed point with the result 0 (R145). -/
theorem xsNext_zero : xsNext #v[0#64, 0#64, 0#64, 0#64] = (0#64, #v[0#64, 0#64, 0#64, 0#64]) := by
  rw [xsNext_words]
  decide

/-- From a state that `xs_next` leaves as it is, every `XS.WORD` answers the same word. -/
theorem execAll_xsWords_of_fixed {v : Vector U64 4} {x : U64} (hv : xsNext v = (x, v)) (n : Nat) {s : State}
    (hs : s.xs = some v) :
    execAll (List.replicate n .xsWord) s =
      .next { s with responses := s.responses ++ List.replicate n ⟨.ok, le64 x⟩ } := by
  induction n generalizing s with
  | zero => rw [List.replicate_zero, List.replicate_zero, List.append_nil]; rfl
  | succ n ih =>
    have hword : exec .xsWord s = .next (s.respond .ok (le64 x)) := by
      rw [exec_xsWord hs, hv, State.with_xs_self hs]
    rw [List.replicate_succ, execAll_cons_of_exec hword, ih (s := s.respond .ok (le64 x)) hs,
      State.respond_responses, List.append_assoc]
    rfl

end Sys2Proof.Machine
end

section
/-! The statements about the XS engine (42_xoshiro.md). -/

namespace Sys2Proof.Machine

/-- Settles O50: a list of length four is the list of its four words. -/
theorem xsInitLoadsExactlyFourWords : Obligations.XsInitLoadsExactlyFourWords := by
  intro words s
  refine ⟨fun hlen => exec_xsInit_of_length_ne_four hlen s, fun hlen => ?_⟩
  obtain ⟨x0, x1, x2, x3, rfl⟩ := List.length_eq_four.mp hlen
  exact exec_xsInit_four x0 x1 x2 x3 s

/-- Settles O51: the closed form of `xs_next`, whose rotations are shifts by definition. -/
theorem xsWordScramblesThenRotates : Obligations.XsWordScramblesThenRotates := by
  intro s
  refine ⟨exec_xsWord_of_xs_none, fun a b c d hs => ?_⟩
  rw [exec_xsWord hs, xsNext_words]
  rfl

/-- Settles O52: `XS.INIT` accepts the four zero words, which `xs_next` leaves as they are. -/
theorem theAllZeroXsStateStaysZero : Obligations.TheAllZeroXsStateStaysZero := by
  intro n s
  rw [execAll_cons_of_exec (exec_xsInit_four _ _ _ _ s), execAll_xsWords_of_fixed xsNext_zero n rfl,
    State.respond_responses, List.append_assoc]
  rfl

end Sys2Proof.Machine
end

section
/-! The inspection commands (43_inspect.md): what each answers, and what stays to be read after other commands. -/

namespace Sys2Proof.Machine

/-! ### The MT engine (R160 to R162) -/

theorem exec_mtRdseed {s : State} {e : MtEngine} (he : s.mt = some e) :
    exec .mtRdseed s = .next (s.respond .ok (le32 e.seed)) :=
  State.withMt_some he _

theorem exec_mtRdmti {s : State} {e : MtEngine} (he : s.mt = some e) :
    exec .mtRdmti s = .next (s.respond .ok (le32 (BitVec.setWidth 32 e.mti))) :=
  State.withMt_some he _

theorem exec_mtRdst {k : U32} {s : State} {e : MtEngine} (he : s.mt = some e) (hk : k.toNat < 624) :
    exec (.mtRdst k) s = .next (s.respond .ok (le32 (e.mt.word k.toNat))) :=
  (State.withMt_some he _).trans (State.rangeCheck_passes (Nat.not_le.mpr hk) _)

/-- The cursor that `MT.SEED` sets, as its four bytes (R161). -/
theorem le32_seededEngine_mti (a : U32) :
    le32 (BitVec.setWidth 32 (seededEngine a).mti) = [0x70#8, 0x02#8, 0x00#8, 0x00#8] := by
  have hcursor : (seededEngine a).mti = 624#10 := rfl
  rw [hcursor]
  decide

/-- The fill starts with the seed (R91). -/
theorem seededEngine_word_zero (a : U32) : (seededEngine a).mt.word 0 = a := rfl

/-- Two commands in a row, the first of which constructs the MT engine: the responses are its own and the second's. -/
theorem execAll_mtSeed_responds {a : U32} {i : Instr} {s : State} {payload : List Byte}
    (h : ∀ t : State, t.mt = some (seededEngine a) → exec i t = .next (t.respond .ok payload)) :
    ∃ t : State, execAll [.mtSeed a, i] s = .next t ∧ t.responses = s.responses ++ [⟨.ok, []⟩, ⟨.ok, payload⟩] := by
  have hrun := (execAll_cons_of_exec (exec_mtSeed a s) [i]).trans (execAll_cons_of_exec (h _ rfl) [])
  exact ⟨_, hrun, List.append_assoc _ _ _⟩

/-- A run without `MT.SEED` keeps the seed register (R23), by induction on the commands. -/
theorem execAll_keeps_seed {is : List Instr} (his : ∀ b, .mtSeed b ∉ is) {s : State} {e : MtEngine} (he : s.mt = some e) :
    ∃ (t : State) (e' : MtEngine), execAll is s = .next t ∧ t.mt = some e' ∧ e'.seed = e.seed := by
  induction is generalizing s e with
  | nil => exact ⟨s, e, rfl, he, rfl⟩
  | cons i is ih =>
    obtain ⟨u, e₁, hexec, hu, hkeeps, -⟩ := onlySeedingChangesTheSeed i s e he
    obtain ⟨t, e', hrun, ht, hseed⟩ := ih (fun b hb => his b (List.mem_cons_of_mem i hb)) hu
    have hi : ∀ a, i ≠ .mtSeed a := fun a ha => his a (ha ▸ List.mem_cons_self)
    exact ⟨t, e', (execAll_cons_of_exec hexec is).trans hrun, ht, hseed.trans (hkeeps hi)⟩

/-! ### The XS engine (R163) -/

theorem exec_xsRdst_of_xs_none {s : State} (i : U32) (h : s.xs = none) :
    exec (.xsRdst i) s = .next (s.respond .errNotInit []) :=
  State.withXs_none h _

theorem exec_xsRdst_of_ge {i : U32} {s : State} {v : Vector U64 4} (h : s.xs = some v) (hi : 4 ≤ i.toNat) :
    exec (.xsRdst i) s = .next (s.respond .errRange []) :=
  (State.withXs_some h _).trans (dif_neg (Nat.not_lt.mpr hi))

theorem exec_xsRdst {i : U32} {s : State} {v : Vector U64 4} (h : s.xs = some v) (hi : i.toNat < 4) :
    exec (.xsRdst i) s = .next (s.respond .ok (le64 v[i.toNat])) :=
  (State.withXs_some h _).trans (dif_pos hi)

/-- Reads in a row, by induction on their indices: each answers its word, and none changes the engine. -/
theorem execAll_xsRdsts (is : List (Fin 4)) {s : State} {v : Vector U64 4} (h : s.xs = some v) :
    execAll (is.map fun i : Fin 4 => .xsRdst (BitVec.ofNat 32 i.val)) s =
      .next { s with responses := s.responses ++ is.map fun i : Fin 4 => ⟨.ok, le64 v[i]⟩ } := by
  induction is generalizing s with
  | nil => rw [List.map_nil, List.map_nil, List.append_nil]; rfl
  | cons i is ih =>
    have hindex : (BitVec.ofNat 32 i.val).toNat = i.val := by rw [BitVec.toNat_ofNat]; omega
    have hread : exec (.xsRdst (BitVec.ofNat 32 i.val)) s = .next (s.respond .ok (le64 v[i])) := by
      simp [exec_xsRdst h (hindex.trans_lt i.isLt), hindex]
    rw [List.map_cons, execAll_cons_of_exec hread, ih (s := s.respond .ok _) h, State.respond_responses, List.append_assoc]
    rfl

/-- Four words read make up the engine they were read from. -/
theorem vector_of_four_words (v : Vector U64 4) : #v[v[0], v[1], v[2], v[3]] = v :=
  Vector.ext fun i hi => match i, hi with
    | 0, _ | 1, _ | 2, _ | 3, _ => rfl

/-! ### `STATUS` (R27) -/

theorem State.mtValid_toNat (s : State) : s.mtValid.toNat = if s.mt = none then 0 else 1 := by
  cases h : s.mt <;> simp [State.mtValid, h]

theorem State.xsValid_toNat (s : State) : s.xsValid.toNat = if s.xs = none then 0 else 1 := by
  cases h : s.xs <;> simp [State.xsValid, h]

/-- The two flags fill no more than the low byte of the status word. -/
theorem le32_statusWord (s : State) :
    le32 s.statusWord = [BitVec.ofNat 8 (s.mtValid.toNat + 2 * s.xsValid.toNat), 0#8, 0#8, 0#8] := by
  unfold State.statusWord
  generalize s.mtValid = m, s.xsValid = x
  revert m x
  decide

end Sys2Proof.Machine
end

section
/-! The statements about inspection (43_inspect.md). -/

namespace Sys2Proof.Machine

/-- Settles O53: the four words read are the whole engine, and `XS.INIT` loads four words in any state. -/
theorem xsRdstReadsACheckpoint : Obligations.XsRdstReadsACheckpoint := by
  refine ⟨fun i _ => exec_xsRdst_of_xs_none i, fun _ _ _ hs => ⟨exec_xsRdst_of_ge hs, exec_xsRdst hs⟩, fun s u v hs => ?_⟩
  refine ⟨v[0], v[1], v[2], v[3], execAll_xsRdsts [0, 1, 2, 3] hs, ?_⟩
  rw [exec_xsInit_four, vector_of_four_words, hs]
  rfl

/-- Settles O54: `MT.SEED a` stores `a`, and no later command of the list changes the seed register. -/
theorem mtRdseedAnswersTheLastSeed : Obligations.MtRdseedAnswersTheLastSeed := by
  refine ⟨fun s => exec_of_mt_none rfl, fun s e => exec_mtRdseed, fun a is s his => ?_⟩
  obtain ⟨t, e, hrun, ht, hseed⟩ := execAll_keeps_seed his
    (s := { s with mt := some (seededEngine a) }.respond .ok []) rfl
  refine ⟨t, (execAll_cons_of_exec (exec_mtSeed a s) is).trans hrun, ?_⟩
  rw [exec_mtRdseed ht, hseed]
  rfl

/-- Settles O55: the cursor, widened to 32 bits, and the cursor 624 that `MT.SEED` sets. -/
theorem mtRdmtiAnswersTheCursor : Obligations.MtRdmtiAnswersTheCursor := by
  intro s
  refine ⟨exec_of_mt_none rfl, fun e he => ?_, fun a => execAll_mtSeed_responds fun t ht => ?_⟩
  · rw [exec_mtRdmti he, BitVec.ofNat_toNat]
    rfl
  · rw [exec_mtRdmti ht, le32_seededEngine_mti]

/-- Settles O56: the word of the index below 624; word 0 of the filled array is the seed. -/
theorem mtRdstAnswersTheStateWord : Obligations.MtRdstAnswersTheStateWord := by
  intro k s
  refine ⟨exec_of_mt_none rfl, fun hmt hk => exec_of_operandFault rfl hmt (if_pos hk), fun e => exec_mtRdst,
    fun a => execAll_mtSeed_responds fun t ht => ?_⟩
  rw [exec_mtRdst ht (by decide), BitVec.toNat_ofNat, Nat.zero_mod, seededEngine_word_zero]

/-- Settles O57: the status word by its bytes, with the valid flags as the presence of the engines. -/
theorem rdstatAnswersTheValidFlags : Obligations.RdstatAnswersTheValidFlags := by
  intro s
  rw [exec_rdstat, le32_statusWord, State.mtValid_toNat, State.xsValid_toNat]
  rfl

end Sys2Proof.Machine
end

section
/-! Faults (60_exceptions.md R180 to R189): which status a command reports, and that a command which reports a fault only responds. -/

namespace Sys2Proof.Machine

/-! ### The status (R181, R183, R188) -/

/-- No operand test reports `ERR_NOT_INIT` (R181). -/
theorem operandFault_ne_errNotInit (i : Instr) : operandFault i ≠ some .errNotInit := by
  cases i <;> simp [operandFault]

/-- `ERR_NOT_INIT` is the status of the commands that use an absent engine, and of no others (R183). -/
theorem statusOf_eq_errNotInit_iff (i : Instr) (s : State) :
    statusOf i s = .errNotInit ↔ (usesMt i = true ∧ s.mt = none) ∨ (usesXs i = true ∧ s.xs = none) := by
  have hoperands : (operandFault i).getD .ok ≠ .errNotInit := by
    cases hfault : operandFault i with
    | none => decide
    | some st => exact fun hst : st = .errNotInit => operandFault_ne_errNotInit i (hst ▸ hfault)
  unfold statusOf
  split_ifs with hmt hxs
  · exact iff_of_true rfl (.inl (by simpa [State.mtValid] using hmt))
  · exact iff_of_true rfl (.inr (by simpa [State.xsValid] using hxs))
  · refine iff_of_false hoperands (not_or.mpr ⟨?_, ?_⟩)
    · simpa [State.mtValid] using hmt
    · simpa [State.xsValid] using hxs

/-- The response a command appends carries the status of R188. -/
theorem status_eq_statusOf {i : Instr} {s t : State} {r : Response} (h : exec i s = .next t)
    (hr : t.responses = s.responses ++ [r]) : r.status = statusOf i s := by
  obtain ⟨u, payload, hexec, -, hresponses, -⟩ := exec_respondsWith i s
  obtain rfl : u = t := Host.Outcome.next.inj (hexec.symm.trans h)
  obtain rfl : r = ⟨statusOf i s, payload⟩ := by simpa [hresponses] using hr.symm
  rfl

/-! ### A fault only responds (R187) -/

/-- The answer `a` in the state `s` either only responds, or is a success that appends its response to those of `s`. -/
def State.OnlyRespondsOrSucceeds (s : State) (a : Answer) : Prop :=
  s.OnlyResponds a ∨ ∃ (t : State) (payload : List Byte), a = t.answer payload ∧ t.responses = s.responses

theorem State.onlyRespondsOrSucceeds_rangeCheck {s t : State} {c : Prop} [Decidable c] (payload : List Byte)
    (h : t.responses = s.responses) : s.OnlyRespondsOrSucceeds (s.rangeCheck c (t.answer payload)) := by
  by_cases hc : c
  · exact .inl ⟨_, _, State.rangeCheck_fails hc _⟩
  · exact .inr ⟨t, payload, State.rangeCheck_passes hc _, h⟩

theorem State.onlyRespondsOrSucceeds_mtCommand (s : State) (operandsFail : Bool) (n : Nat)
    (payload : MtEngine → List Byte) : s.OnlyRespondsOrSucceeds (s.mtCommand operandsFail n payload) := by
  cases hm : s.mt with
  | none => exact .inl ⟨_, _, State.withMt_none hm _⟩
  | some e =>
    rw [State.mtCommand, State.withMt_some hm]
    exact State.onlyRespondsOrSucceeds_rangeCheck _ rfl

theorem State.onlyRespondsOrSucceeds_xsCommand (s : State) (operandsFail : Bool) (next : Vector U64 4 → Vector U64 4)
    (payload : Vector U64 4 → List Byte) : s.OnlyRespondsOrSucceeds (s.xsCommand operandsFail next payload) := by
  cases hx : s.xs with
  | none => exact .inl ⟨_, _, State.withXs_none hx _⟩
  | some v =>
    rw [State.xsCommand, State.withXs_some hx]
    exact State.onlyRespondsOrSucceeds_rangeCheck _ rfl

/-- Every command makes all its tests before it writes an engine (R185, R187). -/
theorem exec_onlyRespondsOrSucceeds (i : Instr) (s : State) : s.OnlyRespondsOrSucceeds (exec i s) := by
  rcases instr_kinds i with (huses | ⟨a, rfl⟩) | (huses | ⟨ws, rfl⟩) | rfl
  · obtain ⟨payload, hexec⟩ := exec_of_usesMt huses
    rw [hexec]
    exact s.onlyRespondsOrSucceeds_mtCommand _ _ _
  · exact .inr ⟨_, _, exec_mtSeed a s, rfl⟩
  · obtain ⟨next, payload, hexec⟩ := exec_of_usesXs huses
    rw [hexec]
    exact s.onlyRespondsOrSucceeds_xsCommand _ _ _
  · rcases exec_xsInit ws with ⟨v, -, hexec⟩ | ⟨-, hexec⟩
    · exact .inr ⟨_, _, hexec s, rfl⟩
    · exact .inl ⟨_, _, hexec s⟩
  · exact .inl ⟨_, _, exec_rdstat s⟩

/-- A command whose status is a fault answers that status alone and keeps the state. -/
theorem exec_of_statusOf_ne_ok {i : Instr} {s : State} (h : statusOf i s ≠ .ok) :
    exec i s = .next (s.respond (statusOf i s) []) := by
  obtain ⟨t, payload, hexec, -, hresponses, hlen⟩ := exec_respondsWith i s
  obtain rfl : payload = [] := List.eq_nil_of_length_eq_zero (hlen.trans (if_neg h))
  rcases exec_onlyRespondsOrSucceeds i s with ⟨st, payload, honly⟩ | ⟨u, payload, hsucceeds, hu⟩
  · obtain rfl : t = s.respond st payload := Host.Outcome.next.inj (hexec.symm.trans honly)
    obtain ⟨rfl, rfl⟩ : st = statusOf i s ∧ payload = [] := by simpa using hresponses
    exact honly
  · have hok : Status.ok = statusOf i s :=
      status_eq_statusOf (r := ⟨.ok, payload⟩) hsucceeds (by rw [← hu]; rfl)
    exact absurd hok.symm h

/-! ### The platform (R10, R193) -/

/-- The step of a platform at the index `k`, from the step of the state there. -/
theorem Platform.stepAt_of_step {n : Nat} {p : Platform n} {k : Fin n} {t : State} (h : step p.inst[k] = .next t) :
    p.stepAt k = .next ⟨p.inst.set k t⟩ := by
  simp only [Platform.stepAt, h]

end Sys2Proof.Machine
end

section
/-! The statements about faults and the platform (60_exceptions.md). -/

namespace Sys2Proof.Machine

/-- Settles O2: the step by what the host has presented. -/
theorem stepRunsTheDecodedCommand : Obligations.StepRunsTheDecodedCommand :=
  fun _ => ⟨fun _ _ _ hp hf _ => step_command hp hf, fun _ _ _ hp hf => step_illegal hp hf, step_idle⟩

/-- Settles O11: an undecodable frame is answered before any state is looked at, and a command responds by R188. -/
theorem firstFailingTestIsReported : Obligations.FirstFailingTestIsReported := by
  refine ⟨fun s f rest x hp hf => ⟨_, step_illegal hp hf, rfl⟩, fun i s => ?_⟩
  obtain ⟨t, payload, hexec, -, hresponses, -⟩ := exec_respondsWith i s
  exact ⟨t, payload, hexec, hresponses⟩

/-- Settles O12: a command writes an engine only when it succeeds, and an undecodable frame is executed by no command. -/
theorem aFaultChangesNothing : Obligations.AFaultChangesNothing :=
  ⟨fun _ _ hfault => exec_of_statusOf_ne_ok hfault, fun _ _ _ _ hp hf => step_illegal hp hf⟩

/-- Settles O13: `ERR_NOT_INIT` is the status of the use of an absent engine alone, and is a fault; `MT.SEED` and an `XS.INIT`
of four words each construct one engine and keep the other. -/
theorem unconstructedGeneratorIsRefused : Obligations.UnconstructedGeneratorIsRefused := by
  refine ⟨fun i s habsent => ?_, fun i s hpresent => ?_, fun a s => ⟨_, exec_mtSeed a s, rfl, rfl⟩, fun words s hlen => ?_⟩
  · have hst := (statusOf_eq_errNotInit_iff i s).mpr habsent
    have hexec := exec_of_statusOf_ne_ok (i := i) (s := s) (by rw [hst]; decide)
    rw [hexec, hst]
    rfl
  · obtain ⟨t, payload, hexec, -, hresponses, -⟩ := exec_respondsWith i s
    exact ⟨t, _, hexec, hresponses, fun hst => hpresent ((statusOf_eq_errNotInit_iff i s).mp hst)⟩
  · rcases exec_xsInit words with ⟨v, -, hexec⟩ | ⟨hne, -⟩
    · exact ⟨_, hexec s, rfl, rfl⟩
    · exact absurd hlen hne

/-- Settles O21: the new state is written back at its own index alone. -/
theorem instancesShareNothing : Obligations.InstancesShareNothing := by
  intro n p k
  obtain ⟨t, ht⟩ := stepAlwaysAnswersANextState p.inst[k]
  refine ⟨_, Platform.stepAt_of_step ht, ?_, fun j hj => ?_⟩
  · rw [ht]
    exact congrArg Host.Outcome.next (Vector.getElem_set_self k.isLt).symm
  · exact Vector.getElem_set_ne k.isLt j.isLt fun hkj => hj (Fin.ext hkj.symm)

end Sys2Proof.Machine
end

section
/-! The statement about whole sequences of frames (70_reset_and_hazards.md R217). -/

namespace Sys2Proof.Machine

/-- Settles O6, by induction on the frames: the first is taken off the port and answered with one response, and the rest
append theirs after it. -/
theorem everyFrameSequenceIsAnsweredWhole : Obligations.EveryFrameSequenceIsAnsweredWhole := by
  intro frames
  induction frames with
  | nil => exact fun s hp => ⟨s, rfl, hp, [], (List.append_nil _).symm, rfl⟩
  | cons f frames ih =>
    intro s hp
    obtain ⟨t, r, hstep, htp, htr, -⟩ := oneResponseFramePerCommandFrame s f _ hp
    obtain ⟨u, hrun, hup, rs, hur, hlen⟩ := ih t htp
    refine ⟨u, (run_succ_of_step hstep frames.length).trans hrun, hup, r :: rs, ?_, congrArg (· + 1) hlen⟩
    rw [hur, htr, List.append_assoc, List.singleton_append]

end Sys2Proof.Machine
end
